-- ==== Sys2Proof/Word.lean ====
section
/-! DEFINITION. Sys2Proof/Word.lean: the two word widths of the machine. -/

namespace Sys2Proof

/-- A register, a memory cell, an address, an opcode or an operand: 8 bits, unsigned (R8, R9, R17). -/
abbrev Byte := BitVec 8

/-- The program counter and the `addr` and `value` fields of a fault record: 9 bits, unsigned (R13, R25, R171). -/
abbrev Word9 := BitVec 9

end Sys2Proof
end

