-- ==== Sys2Proof/Config.lean ====
section
/-! DEFINITION. Sys2Proof/Config.lean: what is fixed for the machine and never changes while it runs:
the sizes of 00_scope.md section 3 and the kind of its one open parameter, OPCODE_MAP. The values OPCODE_MAP takes
on this machine stand beside the decoder (`Sys2Proof.defaultOpcodeMap` in Decode.lean). No value the spec leaves free
is read by any rule, so this file holds no free value. -/

namespace Sys2Proof

/-- The fifteen mnemonics (R2). HLT stands first because the engine tests for it before the table (R83). -/
inductive Mnemonic where
  | hlt | ldi | prn | add | sub | mul | cmp | push | pop | call | ret | jmp | jeq | jne | nop
  deriving DecidableEq, Repr

/-- Every mnemonic once, in the order the engine considers them (R83: HLT, then the table). -/
def Mnemonic.all : List Mnemonic :=
  [.hlt, .ldi, .prn, .add, .sub, .mul, .cmp, .push, .pop, .call, .ret, .jmp, .jeq, .jne, .nop]

/-- OPCODE_MAP: a byte for each mnemonic (R15). It is configuration, not state (R20). -/
abbrev OpcodeMap := Mnemonic → Byte

/-- The map gives distinct mnemonics distinct bytes, as R15 requires. -/
def OpcodeMap.Distinct (map : OpcodeMap) : Prop :=
  ∀ m n : Mnemonic, map m = map n → m = n

/-- MEM_SIZE: 256 cells, addresses 0 to 255 (R8). -/
abbrev Config.memSize : Nat := 256

/-- NREG: eight general registers, R0 to R7 (R10). -/
abbrev Config.nreg : Nat := 8

/-- SP_INDEX: the stack pointer is R7 (R11, R23). -/
abbrev Config.spIndex : Fin Config.nreg := 7

/-- SP_RESET: 0xF4 (R12, R24). -/
abbrev Config.spReset : Byte := 0xF4#8

end Sys2Proof
end

