-- ==== Sys2Proof/Syntax.lean ====
section
/-! DEFINITION. Sys2Proof/Syntax.lean: the instructions as syntax, one constructor per row of
spec/opcode_table.json, each carrying its operand bytes whole (R61, R62). -/

namespace Sys2Proof

/-- The fifteen instructions (R2, R61). A register operand is the whole byte that follows the opcode, not an index
already reduced to 0..7: R67 makes a byte of 8 or more a fault of the instruction that uses it. -/
inductive Instr where
  | ldi (r imm : Byte)
  | prn (r : Byte)
  | add (ra rb : Byte)
  | sub (ra rb : Byte)
  | mul (ra rb : Byte)
  | cmp (ra rb : Byte)
  | push (r : Byte)
  | pop (r : Byte)
  | call (r : Byte)
  | ret
  | jmp (r : Byte)
  | jeq (r : Byte)
  | jne (r : Byte)
  | nop
  | hlt
  deriving DecidableEq, Repr

/-- The mnemonic of an instruction. -/
def Instr.mnemonic : Instr → Mnemonic
  | .ldi _ _ => .ldi
  | .prn _ => .prn
  | .add _ _ => .add
  | .sub _ _ => .sub
  | .mul _ _ => .mul
  | .cmp _ _ => .cmp
  | .push _ => .push
  | .pop _ => .pop
  | .call _ => .call
  | .ret => .ret
  | .jmp _ => .jmp
  | .jeq _ => .jeq
  | .jne _ => .jne
  | .nop => .nop
  | .hlt => .hlt

/-- The operand bytes of an instruction, in address order (R60, R61). -/
def Instr.operandBytes : Instr → List Byte
  | .ldi r imm => [r, imm]
  | .prn r => [r]
  | .add ra rb => [ra, rb]
  | .sub ra rb => [ra, rb]
  | .mul ra rb => [ra, rb]
  | .cmp ra rb => [ra, rb]
  | .push r => [r]
  | .pop r => [r]
  | .call r => [r]
  | .ret => []
  | .jmp r => [r]
  | .jeq r => [r]
  | .jne r => [r]
  | .nop => []
  | .hlt => []

/-- The register operand bytes among them, first operand first (R62). -/
def Instr.registerBytes : Instr → List Byte
  | .ldi r _ => [r]
  | .prn r => [r]
  | .add ra rb => [ra, rb]
  | .sub ra rb => [ra, rb]
  | .mul ra rb => [ra, rb]
  | .cmp ra rb => [ra, rb]
  | .push r => [r]
  | .pop r => [r]
  | .call r => [r]
  | .ret => []
  | .jmp r => [r]
  | .jeq r => [r]
  | .jne r => [r]
  | .nop => []
  | .hlt => []

end Sys2Proof
end

