-- ==== Sys2Proof/WellFormed.lean ====
section
/-! DEFINITION. Sys2Proof/WellFormed.lean: which instructions name only registers that exist. -/

namespace Sys2Proof

/-- An operand byte names a register exactly when it is 0 to 7 (R67). -/
abbrev namesRegister (r : Byte) : Prop := r.toNat < Config.nreg

/-- Every register operand byte of the instruction names a register. An instruction that is not well formed still
decodes and still runs: it faults OutOfBounds REGISTER when it uses the byte (R67), and a not-taken JEQ or JNE does not
use it (R147, R149). Well-formedness is a fact about programs, never a condition of the decoder or of `exec`. -/
abbrev Instr.WellFormed (i : Instr) : Prop := ∀ r ∈ i.registerBytes, namesRegister r

end Sys2Proof
end

