-- ==== Sys2Proof/Decode.lean ====
section
/-! DEFINITION. Sys2Proof/Decode.lean: OPCODE_MAP's default, the decoder from bytes to an instruction, the encoder
back, and the text notation of an instruction (30_encoding.md). -/

namespace Sys2Proof

/-- The default OPCODE_MAP, the table of R64. PRESUMED: the spec takes these LS-8 values from general knowledge
(92_eei_decisions.md D1); log entry 1. -/
def defaultOpcodeMap : OpcodeMap
  | .ldi => 0x82#8
  | .prn => 0x47#8
  | .add => 0xA0#8
  | .sub => 0xA1#8
  | .mul => 0xA2#8
  | .cmp => 0xA7#8
  | .push => 0x45#8
  | .pop => 0x46#8
  | .call => 0x50#8
  | .ret => 0x11#8
  | .jmp => 0x54#8
  | .jeq => 0x55#8
  | .jne => 0x56#8
  | .nop => 0x00#8
  | .hlt => 0x01#8

/-- The map this machine runs with: OPCODE_MAP at its default (R15). -/
def machineOpcodeMap : OpcodeMap := defaultOpcodeMap

/-- Why bytes are no instruction. -/
inductive DecodeError where
  | empty                       -- no byte at all
  | illegalOpcode (b : Byte)    -- the opcode byte is not in OPCODE_MAP (R69)
  | truncated (m : Mnemonic)    -- fewer operand bytes than the mnemonic's format has (R61)
  deriving DecidableEq, Repr

/-- What the decoder answers: the instruction and the bytes that follow it, or why there is none. -/
abbrev Decoded := Except DecodeError (Instr × List Byte)

/-- The operation multiplexer: the whole opcode byte against the map, HLT first; `none` is ILLEGAL (R63, R68, R69). -/
def decodeOpcode (map : OpcodeMap) (ir : Byte) : Option Mnemonic :=
  Mnemonic.all.find? fun m => map m == ir

/-- Format OP_R: one operand byte (R61). -/
def takeOne (m : Mnemonic) (mk : Byte → Instr) : List Byte → Decoded
  | b1 :: rest => .ok (mk b1, rest)
  | [] => .error (.truncated m)

/-- Formats OP_R_R and OP_R_I: two operand bytes (R61). -/
def takeTwo (m : Mnemonic) (mk : Byte → Byte → Instr) : List Byte → Decoded
  | b1 :: b2 :: rest => .ok (mk b1 b2, rest)
  | [_] => .error (.truncated m)
  | [] => .error (.truncated m)

/-- The operand bytes each mnemonic takes: the format table of R61. -/
def decodeOperands : Mnemonic → List Byte → Decoded
  | .ldi, bs => takeTwo .ldi .ldi bs
  | .prn, bs => takeOne .prn .prn bs
  | .add, bs => takeTwo .add .add bs
  | .sub, bs => takeTwo .sub .sub bs
  | .mul, bs => takeTwo .mul .mul bs
  | .cmp, bs => takeTwo .cmp .cmp bs
  | .push, bs => takeOne .push .push bs
  | .pop, bs => takeOne .pop .pop bs
  | .call, bs => takeOne .call .call bs
  | .ret, bs => .ok (.ret, bs)
  | .jmp, bs => takeOne .jmp .jmp bs
  | .jeq, bs => takeOne .jeq .jeq bs
  | .jne, bs => takeOne .jne .jne bs
  | .nop, bs => .ok (.nop, bs)
  | .hlt, bs => .ok (.hlt, bs)

/-- The decoder for any OPCODE_MAP: total on any bytes, opcode byte first (R60, R63, R71). -/
def decodeWith (map : OpcodeMap) : List Byte → Decoded
  | [] => .error .empty
  | ir :: rest =>
    match decodeOpcode map ir with
    | none => .error (.illegalOpcode ir)
    | some m => decodeOperands m rest

/-- The decoder of this machine. -/
def decode (bytes : List Byte) : Decoded := decodeWith machineOpcodeMap bytes

/-- The encoder for any OPCODE_MAP: the opcode byte, then the operand bytes at increasing addresses (R60, R61). -/
def encodeWith (map : OpcodeMap) (i : Instr) : List Byte :=
  map i.mnemonic :: i.operandBytes

/-- The encoder of this machine. -/
def encode (i : Instr) : List Byte := encodeWith machineOpcodeMap i

/-- The operand count of a mnemonic: R61's length column less the opcode byte. -/
def Mnemonic.operandCount : Mnemonic → Nat
  | .ldi => 2
  | .prn => 1
  | .add => 2
  | .sub => 2
  | .mul => 2
  | .cmp => 2
  | .push => 1
  | .pop => 1
  | .call => 1
  | .ret => 0
  | .jmp => 1
  | .jeq => 1
  | .jne => 1
  | .nop => 0
  | .hlt => 0

/-- The bytes of an instruction whose bits are `w`, numbered as spec/opcode_table.json numbers them (byte k is bits
8k+7 to 8k), with every bit from `nbits` on 0, out to the longest instruction (3 bytes, R60). -/
def tableWordBytes (nbits w : Nat) : List Byte :=
  let v := w % 2 ^ nbits
  [BitVec.ofNat 8 v, BitVec.ofNat 8 (v / 2 ^ 8), BitVec.ofNat 8 (v / 2 ^ 16)]

/-- The instruction this machine's decoder reads from those bits. -/
def decodeTableWord (nbits w : Nat) : Option Instr :=
  match decode (tableWordBytes nbits w) with
  | .ok (i, _) => some i
  | .error _ => none

/-- `R` and the operand byte in decimal. -/
def registerText (r : Byte) : String := "R" ++ toString r.toNat

/-- An instruction in the text form of R72: mnemonic, then operands, immediates in decimal. The block consumes bytes
only; nothing reads this text. -/
def Instr.text : Instr → String
  | .ldi r imm => "LDI " ++ registerText r ++ ", " ++ toString imm.toNat
  | .prn r => "PRN " ++ registerText r
  | .add ra rb => "ADD " ++ registerText ra ++ ", " ++ registerText rb
  | .sub ra rb => "SUB " ++ registerText ra ++ ", " ++ registerText rb
  | .mul ra rb => "MUL " ++ registerText ra ++ ", " ++ registerText rb
  | .cmp ra rb => "CMP " ++ registerText ra ++ ", " ++ registerText rb
  | .push r => "PUSH " ++ registerText r
  | .pop r => "POP " ++ registerText r
  | .call r => "CALL " ++ registerText r
  | .ret => "RET"
  | .jmp r => "JMP " ++ registerText r
  | .jeq r => "JEQ " ++ registerText r
  | .jne r => "JNE " ++ registerText r
  | .nop => "NOP"
  | .hlt => "HLT"

end Sys2Proof
end

