-- ==== Sys2Proof/Machine/State.lean ====
section
/-! DEFINITION. Sys2Proof/Machine/State.lean: everything the spec gives the machine, as plain data (R20), the reasons
a step can stop, and the state after reset (R38). -/

namespace Sys2Proof.Machine

/-- `RUN`, the engine state (R32). -/
inductive RunState where
  | running
  | halted
  | faulted
  deriving DecidableEq, Repr

/-- `FAULT.code` of a record; the code "none" is the absence of a record (R33, R171). -/
inductive FaultCode where
  | illegalInstruction
  | unsupportedOperation    -- R112: no step produces it
  | outOfBounds
  deriving DecidableEq, Repr

/-- `FAULT.kind` (R33, R171). -/
inductive FaultKind where
  | none
  | fetch
  | operand
  | register
  | spBelow0
  | spAbove255
  deriving DecidableEq, Repr

/-- `FAULT`, the fault record (R33, R171). -/
structure FaultRecord where
  code  : FaultCode
  kind  : FaultKind
  addr  : Word9
  value : Word9
  deriving DecidableEq, Repr

/-- Memory as the cells that do not hold 0, at rising addresses. -/
abbrev Memory := List Host.Cell

/-- What a cell that is not listed holds: "all other cells default to 0" (R31). -/
abbrev Memory.unlisted : Byte := 0#8

/-- The one form in which memory is held: addresses rising and below MEM_SIZE, no cell listed that holds what an
unlisted cell holds. -/
abbrev Memory.wf (m : Memory) : Prop :=
  m.Pairwise (fun c d => c.1 < d.1) ∧ ∀ c ∈ m, c.1 < Config.memSize ∧ c.2 ≠ Memory.unlisted

/-- The whole state of the machine (R20). -/
structure State where
  regs  : Vector Byte 8         -- R0..R7; R7 is the stack pointer (R21, R23)
  pc    : Word9                 -- PC (R25)
  fl    : Byte                  -- FL; bit 0 is E (R27)
  mem   : Memory                -- MEM (R31)
  run   : RunState              -- RUN (R32)
  fault : Option FaultRecord    -- FAULT, none while RUN is not FAULTED (R33)
  out   : List Byte             -- OUT, oldest byte first (R34)
  ir    : Byte                  -- IR (R35)
  deriving DecidableEq, Repr

/-- Why a step can stop. Both are stuck states: R80 enables no step while `RUN` is not RUNNING. The faults of R170 are
not among them: R172 says what the machine becomes when it takes one, so taking one is a next state. -/
inductive Fault where
  /-- Raised by `step` alone, when `RUN = HALTED`. Safe: the machine does nothing more either (R80, R164). -/
  | stoppedHalted
  /-- Raised by `step` alone, when `RUN = FAULTED`. Safe: the machine does nothing more either (R80, R178). -/
  | stoppedFaulted
  deriving DecidableEq, Repr

/-- Why the model gives no meaning. -/
inductive Refusal where
  /-- Raised by an arm of `exec` whose instruction has no meaning yet. No arm of this model raises it. Safe. -/
  | notModelled (mnemonic : String)
  /-- Raised by `loadImage` alone, for an image of more than 256 bytes (R190: refused at load, no run starts). Safe. -/
  | imageTooLong
  deriving DecidableEq, Repr

/-- The state after construction with no image loaded, at the start of a run (R38, R200). The value of `ir` is a DESIGN
CHOICE, log entry 4: R35 leaves it unspecified. -/
def State.reset : State where
  regs  := #v[0#8, 0#8, 0#8, 0#8, 0#8, 0#8, 0#8, Config.spReset]
  pc    := 0#9
  fl    := 0#8
  mem   := []
  run   := .running
  fault := none
  out   := []
  ir    := 0#8

end Sys2Proof.Machine
end

