-- ==== Sys2Proof/Machine/Ops.lean ====
section
/-! DEFINITION. Sys2Proof/Machine/Ops.lean: the named operations over registers, memory, the program counter, the
output and the instruction register, and taking a fault (R18, R172). -/

namespace Sys2Proof.Machine

/-- What a meaning or a step answers. -/
abbrev Res := Host.Outcome State Fault Refusal

/-- A register's number, 0 to 7. -/
abbrev RegIndex := Fin Config.nreg

/-! ### Memory as data -/

/-- The byte a memory holds at an address. -/
def memGet : Memory → Nat → Byte
  | [], _ => Memory.unlisted
  | (k, v) :: rest, a => if k = a then v else memGet rest a

/-- Put a cell before others, unless it holds what an unlisted cell holds. -/
def memCons (a : Nat) (v : Byte) (rest : Memory) : Memory :=
  if v = Memory.unlisted then rest else (a, v) :: rest

/-- The memory with one cell set, in the canonical form. -/
def memSet : Memory → Nat → Byte → Memory
  | [], a, v => memCons a v []
  | (k, w) :: rest, a, v =>
    if a < k then memCons a v ((k, w) :: rest)
    else if a = k then memCons a v rest
    else (k, w) :: memSet rest a v

/-- The memory with bytes set from an address on, "in order, with no gaps" (R190). Bytes that would lie past the last
cell have no cell and are not stored. -/
def memPlace (m : Memory) (a : Nat) : List Byte → Memory
  | [] => m
  | b :: bs => memPlace (if a < Config.memSize then memSet m a b else m) (a + 1) bs

/-! ### Registers, memory, PC, OUT and IR of a state -/

/-- `x[i]` as a value (R18). -/
def State.reg (s : State) (d : RegIndex) : Byte := s.regs[d.val]

/-- `x[i] <- v` (R18). -/
def State.setReg (s : State) (d : RegIndex) (v : Byte) : State :=
  { s with regs := s.regs.set d.val v }

/-- SP, which is R7 (R23). -/
def State.sp (s : State) : Byte := s.reg Config.spIndex

/-- A write of SP (R23). -/
def State.setSp (s : State) (v : Byte) : State := s.setReg Config.spIndex v

/-- `MemRead(addr, 1)` (R42). The address is a byte, so it is always a cell's. -/
def State.read (s : State) (a : Byte) : Byte := memGet s.mem a.toNat

/-- `MemWrite(addr, 1, v)` (R43). -/
def State.write (s : State) (a v : Byte) : State := { s with mem := memSet s.mem a.toNat v }

/-- `pc <- t` (R18). -/
def State.setPc (s : State) (t : Word9) : State := { s with pc := t }

/-- `Emit(v)` (R18, R34). -/
def State.emit (s : State) (v : Byte) : State := { s with out := s.out ++ [v] }

/-- `IR <- b` (R35, R81). -/
def State.latchIr (s : State) (b : Byte) : State := { s with ir := b }

/-- `RUN <- HALTED` (R163). -/
def State.halt (s : State) : State := { s with run := .halted }

/-- A byte as a value of the 9-bit program counter. -/
def toPc (b : Byte) : Word9 := b.setWidth 9

/-! ### Taking a fault -/

/-- The state after a fault: `RUN <- FAULTED`, `FAULT <- {code, kind, addr = a, value}` and nothing else; `a` is `pc`,
which no instruction has moved when it raises (R19, R172). -/
def State.takeFault (s : State) (code : FaultCode) (kind : FaultKind) (value : Word9) : State :=
  { s with run := .faulted, fault := some { code, kind, addr := s.pc, value } }

/-- `raise Fault(code, kind, value)` (R18, R172). There is no return from a fault (R178). -/
def raise (code : FaultCode) (kind : FaultKind) (value : Word9) (s : State) : Res :=
  .next (s.takeFault code kind value)

end Sys2Proof.Machine
end

