-- ==== Sys2Proof/Machine/Flags.lean ====
section
/-! DEFINITION. Sys2Proof/Machine/Flags.lean: the equal flag E, bit 0 of FL, the only flag there is (R27 to R29). -/

namespace Sys2Proof.Machine

/-- `FL.E` (R18, R27). -/
def State.flagE (s : State) : Bool := s.fl.getLsbD 0

/-- `FL.E <- b`; bits 7 to 1 are not written (R28, R119). -/
def State.setFlagE (s : State) (b : Bool) : State :=
  { s with fl := (s.fl &&& 0xFE#8) ||| (if b then 1#8 else 0#8) }

/-- E as CMP computes it: 1 exactly when the two bytes are equal (R119, R120). -/
def equalFlag (u v : Byte) : Bool := u == v

end Sys2Proof.Machine
end

