-- ==== Sys2Proof/Machine/Alu.lean ====
section
/-! DEFINITION. Sys2Proof/Machine/Alu.lean: the arithmetic-logic unit (42_alu.md section 1). -/

namespace Sys2Proof.Machine

/-- The ALU's operation select: exactly these four (R16, R110). A fifth tag has no value here, so
UnsupportedOperation has nothing to raise it (R112). -/
inductive AluOp where
  | add
  | sub
  | mul
  | cmp
  deriving DecidableEq, Repr

/-- Unsigned arithmetic modulo 256 (R111). -/
def aluAdd (u v : Byte) : Byte := u + v

/-- The difference reduced into 0..255 (R115). -/
def aluSub (u v : Byte) : Byte := u - v

/-- The low 8 bits of the product (R117). -/
def aluMul (u v : Byte) : Byte := u * v

/-- `apply(op, ra, rb)`: ADD, SUB and MUL write `x[ra]`, CMP writes `FL.E` (R110). -/
def aluApply (op : AluOp) (ra rb : RegIndex) (s : State) : State :=
  match op with
  | .add => s.setReg ra (aluAdd (s.reg ra) (s.reg rb))
  | .sub => s.setReg ra (aluSub (s.reg ra) (s.reg rb))
  | .mul => s.setReg ra (aluMul (s.reg ra) (s.reg rb))
  | .cmp => s.setFlagE (equalFlag (s.reg ra) (s.reg rb))

end Sys2Proof.Machine
end

