-- ==== Sys2Proof/Machine/Operands.lean ====
section
/-! DEFINITION. Sys2Proof/Machine/Operands.lean: the checks of operand bytes, register operands and the stack
pointer, in the form "check, or fault; then go on", and the stack slot a push uses. -/

namespace Sys2Proof.Machine

/-- The check of `operand(a, k)`: the address `a + k` must be a cell's, else OutOfBounds OPERAND (R82). The byte itself
was read when the instruction was fetched and is an argument of the meaning. -/
def withOperand (k : Nat) (s : State) (go : Res) : Res :=
  if s.pc.toNat + k < Config.memSize then go
  else raise .outOfBounds .operand (BitVec.ofNat 9 (s.pc.toNat + k)) s

/-- `checkreg(r)`: the whole byte is the register's number, else OutOfBounds REGISTER (R67). -/
def withReg (r : Byte) (s : State) (go : RegIndex → Res) : Res :=
  if h : r.toNat < Config.nreg then go ⟨r.toNat, h⟩
  else raise .outOfBounds .register (r.setWidth 9) s

/-- The cell a push writes: SP after its decrement (R41, R131, R141). -/
def pushAddress (s : State) : Byte := s.sp - 1#8

/-- The stack check of a push and its decrement of SP: OutOfBounds SP_BELOW_0 when SP is 0 (R131, R141). -/
def withPush (s : State) (go : State → Res) : Res :=
  if s.sp = 0#8 then raise .outOfBounds .spBelow0 0#9 s
  else go (s.setSp (pushAddress s))

/-- The stack check of a pop: OutOfBounds SP_ABOVE_255 when the SP to be incremented is 255 (R133, R143). -/
def withPop (sp : Byte) (s : State) (go : Res) : Res :=
  if sp = 255#8 then raise .outOfBounds .spAbove255 255#9 s
  else go

end Sys2Proof.Machine
end

