-- ==== Sys2Proof/Machine/Arith.lean ====
section
/-! DEFINITION. Sys2Proof/Machine/Arith.lean: the meanings of ADD, SUB, MUL and CMP (42_alu.md). -/

namespace Sys2Proof.Machine

/-- The shape the four share: both operand addresses, then both registers, then the ALU, then `pc <- a + 3`. -/
def aluInstr (op : AluOp) (ra rb : Byte) (s : State) : Res :=
  withOperand 1 s <|
  withOperand 2 s <|
  withReg ra s fun a =>
  withReg rb s fun b =>
  .next ((aluApply op a b s).setPc (s.pc + 3#9))

/-- R113. -/
def execAdd (ra rb : Byte) (s : State) : Res := aluInstr .add ra rb s

/-- R115. -/
def execSub (ra rb : Byte) (s : State) : Res := aluInstr .sub ra rb s

/-- R117. -/
def execMul (ra rb : Byte) (s : State) : Res := aluInstr .mul ra rb s

/-- R119. -/
def execCmp (ra rb : Byte) (s : State) : Res := aluInstr .cmp ra rb s

end Sys2Proof.Machine
end

