-- ==== Sys2Proof/Machine/ControlTransfer.lean ====
section
/-! DEFINITION. Sys2Proof/Machine/ControlTransfer.lean: the meanings of CALL, RET, JMP, JEQ and JNE
(44_control_transfer.md), each with the net next-pc of R84 and R85. -/

namespace Sys2Proof.Machine

/-- The byte CALL pushes: the address of its own operand byte, `a + 1` (R141, 90_conflicts.md C2). -/
def returnByte (s : State) : Byte := (s.pc + 1#9).setWidth 8

/-- Where CALL enters, from the value of its register: that value plus 1 (R141, 90_conflicts.md C1). -/
def callEntry (t : Byte) : Word9 := toPc t + 1#9

/-- Where RET goes, from the byte it pops: that byte plus 1 (R143). -/
def returnTarget (v : Byte) : Word9 := toPc v + 1#9

/-- R141. `x[r]` is read after the push, so CALL R7 takes the new SP as its target. -/
def execCall (r : Byte) (s : State) : Res :=
  withOperand 1 s <|
  withReg r s fun d =>
  withPush s fun t =>
  .next ((t.write (pushAddress s) (returnByte s)).setPc (callEntry (t.reg d)))

/-- R143. -/
def execRet (s : State) : Res :=
  withPop s.sp s <|
  .next ((s.setSp (s.sp + 1#8)).setPc (returnTarget (s.read s.sp)))

/-- The jump JMP makes, which a taken JEQ or JNE makes too: `pc <- x[r]` (R145, R147, R149). -/
def jump (r : Byte) (s : State) : Res :=
  withOperand 1 s <|
  withReg r s fun d =>
  .next (s.setPc (toPc (s.reg d)))

/-- A branch: the jump when taken; otherwise `pc <- a + 2`, the operand byte neither read nor checked (R147, R149). -/
def branch (taken : Bool) (r : Byte) (s : State) : Res :=
  if taken then jump r s else .next (s.setPc (s.pc + 2#9))

/-- R145. -/
def execJmp (r : Byte) (s : State) : Res := jump r s

/-- R147. -/
def execJeq (r : Byte) (s : State) : Res := branch s.flagE r s

/-- R149. -/
def execJne (r : Byte) (s : State) : Res := branch (!s.flagE) r s

end Sys2Proof.Machine
end

