-- ==== Sys2Proof/Machine/LoadPrint.lean ====
section
/-! DEFINITION. Sys2Proof/Machine/LoadPrint.lean: the meanings of LDI and PRN (41_load_print.md). -/

namespace Sys2Proof.Machine

/-- R101, R66. -/
def execLdi (r imm : Byte) (s : State) : Res :=
  withOperand 1 s <|
  withOperand 2 s <|
  withReg r s fun d =>
  .next ((s.setReg d imm).setPc (s.pc + 3#9))

/-- R103. -/
def execPrn (r : Byte) (s : State) : Res :=
  withOperand 1 s <|
  withReg r s fun d =>
  .next ((s.emit (s.reg d)).setPc (s.pc + 2#9))

end Sys2Proof.Machine
end

