-- ==== Sys2Proof/Machine/NopHalt.lean ====
section
/-! DEFINITION. Sys2Proof/Machine/NopHalt.lean: the meanings of NOP and HLT (45_nop_halt.md). -/

namespace Sys2Proof.Machine

/-- R161. -/
def execNop (s : State) : Res := .next (s.setPc (s.pc + 1#9))

/-- R163: `RUN <- HALTED`, and `pc` stays. -/
def execHlt (s : State) : Res := .next s.halt

end Sys2Proof.Machine
end

