-- ==== Sys2Proof/Machine/Stack.lean ====
section
/-! DEFINITION. Sys2Proof/Machine/Stack.lean: the meanings of PUSH and POP (43_stack.md). -/

namespace Sys2Proof.Machine

/-- R131. `x[r]` is read after the decrement, so PUSH R7 stores the new SP. -/
def execPush (r : Byte) (s : State) : Res :=
  withOperand 1 s <|
  withReg r s fun d =>
  withPush s fun t =>
  .next ((t.write (pushAddress s) (t.reg d)).setPc (s.pc + 2#9))

/-- R133. The increment applies to the SP that the register write leaves, so POP R7 leaves the popped byte plus 1. -/
def execPop (r : Byte) (s : State) : Res :=
  withOperand 1 s <|
  withReg r s fun d =>
  let t := s.setReg d (s.read s.sp)
  withPop t.sp s <|
  .next ((t.setSp (t.sp + 1#8)).setPc (s.pc + 2#9))

end Sys2Proof.Machine
end

