-- ==== Sys2Proof/Machine/Engine.lean ====
section
/-! DEFINITION. Sys2Proof/Machine/Engine.lean: the fetch-decode-execute engine, one step of it, for any OPCODE_MAP
(40_engine.md). -/

namespace Sys2Proof.Machine

/-- What stands in the place of an operand byte past the last cell. The instruction faults before it uses that byte, or
never uses it (R82, R147), so the value is never seen. DESIGN CHOICE, log entry 5. -/
def absentByte : Byte := 0#8

/-- The byte at `a + k` where `a` is `pc`, as memory stands at the start of the step (R54, R81, R82). -/
def fetchByte (s : State) (k : Nat) : Byte :=
  if s.pc.toNat + k < Config.memSize then memGet s.mem (s.pc.toNat + k) else absentByte

/-- The bytes the decoder is given: as many as the longest instruction has (R60). -/
def fetchWindow (s : State) : List Byte := [fetchByte s 0, fetchByte s 1, fetchByte s 2]

/-- One step while `RUN = RUNNING`: fetch, decode, dispatch (R81, R83, R86). -/
def runningStep (map : OpcodeMap) (s : State) : Res :=
  if s.pc.toNat < Config.memSize then
    let t := s.latchIr (fetchByte s 0)
    match decodeWith map (fetchWindow s) with
    | .ok (i, _) => exec i t
    | .error _ => raise .illegalInstruction .none (t.ir.setWidth 9) t
  else raise .outOfBounds .fetch s.pc s

/-- One step. HALTED and FAULTED are terminal: no step is enabled in either (R80), so asking for one is a stuck state;
DESIGN CHOICE, log entry 3. -/
def engineStep (map : OpcodeMap) (s : State) : Res :=
  match s.run with
  | .running => runningStep map s
  | .halted => .fault .stoppedHalted
  | .faulted => .fault .stoppedFaulted

end Sys2Proof.Machine
end

