-- ==== Sys2Proof/Machine/Step.lean ====
section
/-! DEFINITION. Sys2Proof/Machine/Step.lean: the step of this machine, and an instruction placed where it fetches. -/

namespace Sys2Proof.Machine

/-- One step of the machine with OPCODE_MAP at its default (R86). -/
def step (s : State) : Host.Outcome State Fault Refusal := engineStep machineOpcodeMap s

/-- `s` with the instruction whose bits are `w`, numbered as the opcode table numbers them, in the cells from `pc` on.
It stands for the load of R190: no step of the machine brings a program in (log entry 7). -/
def State.withFetchWord (s : State) (nbits w : Nat) : State :=
  { s with mem := memPlace s.mem s.pc.toNat (tableWordBytes nbits w) }

end Sys2Proof.Machine
end

