-- ==== Sys2Proof/Machine/HostInterface.lean ====
section
/-! DEFINITION. Sys2Proof/Machine/HostInterface.lean: what the host can hand the block before a run and what it can
read of it between steps (60_exceptions.md section 6), with the numbers of the fault record (R171). -/

namespace Sys2Proof.Machine

/-- Construct and load: the reset state with byte i of the image at `MEM[i]`; an image of more than 256 bytes is refused
and no run starts (R38, R190, R200). -/
def loadImage (image : List Byte) : Res :=
  if image.length ≤ Config.memSize then .next { State.reset with mem := memPlace State.reset.mem 0 image }
  else .refused .imageTooLong

/-- What the host can read: everything but IR (R30, R192). -/
structure HostView where
  run   : RunState
  fault : Option FaultRecord
  regs  : Vector Byte 8
  fl    : Byte
  pc    : Word9
  mem   : Memory
  out   : List Byte
  deriving DecidableEq, Repr

/-- The host's reading of a state; it changes nothing (R192). -/
def State.hostView (s : State) : HostView :=
  { run := s.run, fault := s.fault, regs := s.regs, fl := s.fl, pc := s.pc, mem := s.mem, out := s.out }

/-- The number of a fault code (R171). -/
def FaultCode.number : FaultCode → Nat
  | .illegalInstruction => 1
  | .unsupportedOperation => 2
  | .outOfBounds => 3

/-- The number of a fault kind (R171). -/
def FaultKind.number : FaultKind → Nat
  | .none => 0
  | .fetch => 1
  | .operand => 2
  | .register => 3
  | .spBelow0 => 4
  | .spAbove255 => 5

/-- `FAULT.code` as the host reads it, 0 when there is no record (R33, R171). -/
def State.faultCodeNumber (s : State) : Nat :=
  match s.fault with
  | none => 0
  | some f => f.code.number

/-- `FAULT.kind` as the host reads it, 0 when there is no record (R33, R171). -/
def State.faultKindNumber (s : State) : Nat :=
  match s.fault with
  | none => 0
  | some f => f.kind.number

/-- The host's rendering of OUT: one line of decimal for each byte, in execution order (R104, R191). The block itself
emits bytes only. -/
def State.outputLines (s : State) : List String := s.out.map fun b => toString b.toNat

end Sys2Proof.Machine
end

