-- ==== Sys2Proof/Machine/Run.lean ====
section
/-! DEFINITION. Sys2Proof/Machine/Run.lean: a run, as repeated steps while RUNNING (R87), under a bound on the number
of steps that is the model's own. -/

namespace Sys2Proof.Machine

/-- What a bounded run comes to. A run that the bound cuts short is neither halted nor faulted (R87, R193). -/
inductive RunResult where
  | halted (s : State)
  | faulted (s : State)
  | cutShort (s : State)
  deriving DecidableEq, Repr

/-- The result that a state already is, when no further step is taken. -/
def RunResult.ofState (s : State) : RunResult :=
  match s.run with
  | .running => .cutShort s
  | .halted => .halted s
  | .faulted => .faulted s

/-- Repeat `step` while it answers a next state, at most `fuel` times (R87). -/
def runFor : Nat → State → RunResult
  | 0, s => .ofState s
  | fuel + 1, s =>
    match step s with
    | .next t => runFor fuel t
    | .fault _ => .ofState s
    | .refused _ => .ofState s

end Sys2Proof.Machine
end

