-- ==== Sys2Proof/Safety.lean ====
section
/-! DEFINITION. Sys2Proof/Safety.lean: the terms in which statements about the machine are made: how a run ends, what a
legal state is, and the spec's tables of faults, next-pc values, registers used and cells stored to, each written from
its rule and not from the meanings. -/

namespace Sys2Proof.Machine

/-! ### How a run ends -/

/-- A run is final exactly when `RUN = HALTED` (R88). -/
abbrev State.Final (s : State) : Prop := s.run = .halted

/-- A run that ends with `RUN = FAULTED` is an error outcome, not a halt (R88, R193). -/
abbrev State.ErrorOutcome (s : State) : Prop := s.run = .faulted

/-- The states of runs: an image is loaded, then steps follow (R56, R87, R200). -/
inductive Reachable : State → Prop where
  | load (image : List Byte) (s : State) : loadImage image = .next s → Reachable s
  | step (s t : State) : Reachable s → step s = .next t → Reachable t

/-! ### The fault catalogue -/

/-- The record is one of the rows of R170 that a step can produce, with the addresses and values that the row allows. -/
def FaultRecord.Catalogued (f : FaultRecord) : Prop :=
  match f.code, f.kind with
  | .illegalInstruction, .none =>
      f.addr.toNat < 256 ∧ f.value.toNat < 256 ∧ decodeOpcode machineOpcodeMap (f.value.setWidth 8) = none
  | .outOfBounds, .fetch => 256 ≤ f.addr.toNat ∧ f.value = f.addr
  | .outOfBounds, .operand => (f.addr = 254#9 ∨ f.addr = 255#9) ∧ f.value = 256#9
  | .outOfBounds, .register => f.addr.toNat < 255 ∧ 8 ≤ f.value.toNat ∧ f.value.toNat < 256
  | .outOfBounds, .spBelow0 => f.addr.toNat < 255 ∧ f.value = 0#9
  | .outOfBounds, .spAbove255 => f.addr.toNat < 256 ∧ f.value = 255#9
  | _, _ => False

/-- A fault condition: whether it holds, and the record it makes. -/
abbrev FaultCheck := Bool × FaultRecord

/-- The record of the first condition that holds. -/
def firstFault : List FaultCheck → Option FaultRecord
  | [] => none
  | (holds, f) :: rest => if holds then some f else firstFault rest

/-- R170, OPERAND: the address `a + k` is past 255; the value is always 256. -/
def operandCheck (s : State) (k : Nat) : FaultCheck :=
  (decide (255 < s.pc.toNat + k), ⟨.outOfBounds, .operand, s.pc, 256#9⟩)

/-- R170, REGISTER: the register operand byte is 8 or more; the value is that byte. -/
def registerCheck (s : State) (r : Byte) : FaultCheck :=
  (decide (8 ≤ r.toNat), ⟨.outOfBounds, .register, s.pc, BitVec.ofNat 9 r.toNat⟩)

/-- R170, SP_BELOW_0: a push with SP = 0. -/
def pushCheck (s : State) : FaultCheck :=
  (decide (s.sp = 0#8), ⟨.outOfBounds, .spBelow0, s.pc, 0#9⟩)

/-- R170, SP_ABOVE_255: the increment of a stack pointer that is 255. -/
def popCheck (s : State) (sp : Byte) : FaultCheck :=
  (decide (sp = 255#8), ⟨.outOfBounds, .spAbove255, s.pc, 255#9⟩)

/-- The fault an instruction raises at a state, if any: the conditions of its rule in the order of R174 (operand
addresses, register operands, stack). -/
def faultOf (i : Instr) (s : State) : Option FaultRecord :=
  match i with
  | .ldi r _ => firstFault [operandCheck s 1, operandCheck s 2, registerCheck s r]
  | .prn r => firstFault [operandCheck s 1, registerCheck s r]
  | .add ra rb => firstFault [operandCheck s 1, operandCheck s 2, registerCheck s ra, registerCheck s rb]
  | .sub ra rb => firstFault [operandCheck s 1, operandCheck s 2, registerCheck s ra, registerCheck s rb]
  | .mul ra rb => firstFault [operandCheck s 1, operandCheck s 2, registerCheck s ra, registerCheck s rb]
  | .cmp ra rb => firstFault [operandCheck s 1, operandCheck s 2, registerCheck s ra, registerCheck s rb]
  | .push r => firstFault [operandCheck s 1, registerCheck s r, pushCheck s]
  | .pop r => firstFault [operandCheck s 1, registerCheck s r, popCheck s (if r = 7#8 then s.read s.sp else s.sp)]
  | .call r => firstFault [operandCheck s 1, registerCheck s r, pushCheck s]
  | .ret => firstFault [popCheck s s.sp]
  | .jmp r => firstFault [operandCheck s 1, registerCheck s r]
  | .jeq r => if s.flagE then firstFault [operandCheck s 1, registerCheck s r] else none
  | .jne r => if s.flagE then none else firstFault [operandCheck s 1, registerCheck s r]
  | .nop => none
  | .hlt => none

/-! ### Legal states -/

/-- What every state of a run meets: memory in its canonical form, FL bits 7 to 1 at 0 (R28), `pc` in 0..257 (R25,
R85), a fault record exactly when FAULTED (R33), and that record catalogued, with `pc` still at the faulting
instruction (R170, R172). -/
structure State.Inv (s : State) : Prop where
  mem_wf : Memory.wf s.mem
  fl_high : s.fl &&& 0xFE#8 = 0#8
  pc_range : s.pc.toNat ≤ 257
  fault_iff : s.fault.isSome = true ↔ s.run = .faulted
  fault_ok : ∀ f, s.fault = some f → f.Catalogued ∧ f.addr = s.pc

/-! ### What an instruction touches -/

/-- The byte names register d (R67). -/
abbrev namesReg (r : Byte) (d : RegIndex) : Prop := r.toNat = d.val

/-- The registers an instruction writes: the last column of R22 (FL apart). -/
def WritesReg (i : Instr) (d : RegIndex) : Prop :=
  match i with
  | .ldi r _ => namesReg r d
  | .prn _ => False
  | .add ra _ => namesReg ra d
  | .sub ra _ => namesReg ra d
  | .mul ra _ => namesReg ra d
  | .cmp _ _ => False
  | .push _ => d = Config.spIndex
  | .pop r => namesReg r d ∨ d = Config.spIndex
  | .call _ => d = Config.spIndex
  | .ret => d = Config.spIndex
  | .jmp _ => False
  | .jeq _ => False
  | .jne _ => False
  | .nop => False
  | .hlt => False

/-- The registers an instruction reads: the middle column of R22 (FL apart). -/
def ReadsReg (i : Instr) (s : State) (d : RegIndex) : Prop :=
  match i with
  | .ldi _ _ => False
  | .prn r => namesReg r d
  | .add ra rb => namesReg ra d ∨ namesReg rb d
  | .sub ra rb => namesReg ra d ∨ namesReg rb d
  | .mul ra rb => namesReg ra d ∨ namesReg rb d
  | .cmp ra rb => namesReg ra d ∨ namesReg rb d
  | .push r => namesReg r d ∨ d = Config.spIndex
  | .pop _ => d = Config.spIndex
  | .call r => namesReg r d ∨ d = Config.spIndex
  | .ret => d = Config.spIndex
  | .jmp r => namesReg r d
  | .jeq r => s.flagE = true ∧ namesReg r d
  | .jne r => s.flagE = false ∧ namesReg r d
  | .nop => False
  | .hlt => False

/-- The cell an instruction stores its one byte to: only PUSH and CALL store, at SP after its decrement (R41). -/
def storeAddress (i : Instr) (s : State) : Option Byte :=
  match i with
  | .ldi _ _ => none
  | .prn _ => none
  | .add _ _ => none
  | .sub _ _ => none
  | .mul _ _ => none
  | .cmp _ _ => none
  | .push _ => some (pushAddress s)
  | .pop _ => none
  | .call _ => some (pushAddress s)
  | .ret => none
  | .jmp _ => none
  | .jeq _ => none
  | .jne _ => none
  | .nop => none
  | .hlt => none

/-- A byte's register at a state, as the numbered register it names; bytes of 8 or more name none and are read as 0
here, where no statement uses them. -/
def namedReg (r : Byte) (s : State) : Byte := if h : r.toNat < 8 then s.reg ⟨r.toNat, h⟩ else 0#8

/-- The net next-pc: the last column of R84, with CALL's register read after the push (R90). -/
def netNextPc (i : Instr) (s : State) : Nat :=
  match i with
  | .ldi _ _ => s.pc.toNat + 3
  | .prn _ => s.pc.toNat + 2
  | .add _ _ => s.pc.toNat + 3
  | .sub _ _ => s.pc.toNat + 3
  | .mul _ _ => s.pc.toNat + 3
  | .cmp _ _ => s.pc.toNat + 3
  | .push _ => s.pc.toNat + 2
  | .pop _ => s.pc.toNat + 2
  | .call r => (if r = 7#8 then s.sp.toNat - 1 else (namedReg r s).toNat) + 1
  | .ret => (s.read s.sp).toNat + 1
  | .jmp r => (namedReg r s).toNat
  | .jeq r => if s.flagE then (namedReg r s).toNat else s.pc.toNat + 2
  | .jne r => if s.flagE then s.pc.toNat + 2 else (namedReg r s).toNat
  | .nop => s.pc.toNat + 1
  | .hlt => s.pc.toNat

end Sys2Proof.Machine
end

