-- ==== Sys2Proof/Certificates/Slice0/Obligations.lean ====
section
/-! DEFINITION. Sys2Proof/Certificates/Slice0/Obligations.lean: the statements for the provers. Where a statement rests
on a choice the spec marks as its own ("decision D<n>" of 92_eei_decisions.md, "derived", "general knowledge") or on a
choice of the model (a log entry), its docstring names it. -/

section
open Sys2Proof Sys2Proof.Machine

/-! ### Encoding -/

/-- The opcode values of the default OPCODE_MAP, each word written out from the binary column of 30_encoding.md section 2.
The values are PRESUMED (log entry 1): the spec takes them from general knowledge (decision D1). -/
def Obligations.DefaultOpcodeWordsDecode : Prop :=
  decode [0b10000010#8, 0b00000011#8, 0b11111111#8] = .ok (.ldi 3#8 255#8, []) ∧
  decode [0b01000111#8, 0b00000001#8] = .ok (.prn 1#8, []) ∧
  decode [0b10100000#8, 0b00000001#8, 0b00000010#8] = .ok (.add 1#8 2#8, []) ∧
  decode [0b10100001#8, 0b00000011#8, 0b00000100#8] = .ok (.sub 3#8 4#8, []) ∧
  decode [0b10100010#8, 0b00000101#8, 0b00000110#8] = .ok (.mul 5#8 6#8, []) ∧
  decode [0b10100111#8, 0b00000111#8, 0b00000000#8] = .ok (.cmp 7#8 0#8, []) ∧
  decode [0b01000101#8, 0b00000111#8] = .ok (.push 7#8, []) ∧
  decode [0b01000110#8, 0b00000010#8] = .ok (.pop 2#8, []) ∧
  decode [0b01010000#8, 0b00000100#8] = .ok (.call 4#8, []) ∧
  decode [0b00010001#8, 0b00000001#8] = .ok (.ret, [1#8]) ∧
  decode [0b01010100#8, 0b00000110#8] = .ok (.jmp 6#8, []) ∧
  decode [0b01010101#8, 0b00001001#8] = .ok (.jeq 9#8, []) ∧
  decode [0b01010110#8, 0b10000000#8] = .ok (.jne 128#8, []) ∧
  decode [0b00000000#8] = .ok (.nop, []) ∧
  decode [0b00000001#8, 0b10000010#8] = .ok (.hlt, [130#8])

/-- For every injective OPCODE_MAP, decoding the bytes of any instruction, with any bytes after them, gives that
instruction and leaves those bytes. No operand byte is restricted. -/
def Obligations.DecodeOfEncodeIsTheInstruction : Prop :=
  ∀ map : OpcodeMap, map.Distinct → ∀ (i : Instr) (rest : List Byte),
    decodeWith map (encodeWith map i ++ rest) = .ok (i, rest)

/-- For every OPCODE_MAP, whatever bytes decode are the encoding of what they decode to, followed by what is left. -/
def Obligations.DecodedBytesAreTheEncoding : Prop :=
  ∀ (map : OpcodeMap) (bytes : List Byte) (i : Instr) (rest : List Byte),
    decodeWith map bytes = .ok (i, rest) → bytes = encodeWith map i ++ rest

/-- R63, for every injective OPCODE_MAP: a byte is an operation's opcode exactly when the whole byte is that opcode. -/
def Obligations.OpcodeByteIsComparedWhole : Prop :=
  ∀ map : OpcodeMap, map.Distinct → ∀ (b : Byte) (m : Mnemonic), decodeOpcode map b = some m ↔ b = map m

/-- The opcode alone fixes the length and the operation: two byte sequences with the same first byte that decode have
the same mnemonic, and each uses up the opcode byte and that mnemonic's operand count. (The spec marks this "derived".) -/
def Obligations.OpcodeAloneFixesTheLength : Prop :=
  ∀ (map : OpcodeMap) (b : Byte) (bytes bytes' rest rest' : List Byte) (i i' : Instr),
    decodeWith map (b :: bytes) = .ok (i, rest) → decodeWith map (b :: bytes') = .ok (i', rest') →
    i.mnemonic = i'.mnemonic ∧ bytes.length = i.mnemonic.operandCount + rest.length ∧
      bytes'.length = i.mnemonic.operandCount + rest'.length

/-- R69: a fetched byte that is no opcode of the map raises IllegalInstruction with that byte and the address of the
fetch, for every OPCODE_MAP; and under every injective map, the default one among them, 241 of the 256 byte values are
illegal, whatever the opcode values are. -/
def Obligations.IllegalOpcodeBytesFault : Prop :=
  (∀ (map : OpcodeMap) (s : State) (b : Byte), s.run = .running → s.pc.toNat < 256 →
    memGet s.mem s.pc.toNat = b → (∀ m, map m ≠ b) →
    engineStep map s = .next { s with
      ir := b, run := .faulted, fault := some ⟨.illegalInstruction, .none, s.pc, BitVec.ofNat 9 b.toNat⟩ }) ∧
  (∀ map : OpcodeMap, map.Distinct →
    ((List.range 256).filter fun n => decodeOpcode map (BitVec.ofNat 8 n) = none).length = 241)

/-! ### The engine -/

/-- R83, for every injective OPCODE_MAP and the opcode byte b at `pc`: HLT's byte halts and does nothing more; another
opcode performs that operation on the operand bytes that follow it in memory; any other byte raises
IllegalInstruction with `addr = a`, and changes no register, flag, cell, output or `pc`. -/
def Obligations.DispatchIsHaltTableOrIllegal : Prop :=
  ∀ (map : OpcodeMap) (s : State) (b : Byte), map.Distinct → s.run = .running → s.pc.toNat < 256 →
    memGet s.mem s.pc.toNat = b →
    (b = map .hlt → engineStep map s = .next { s with ir := b, run := .halted }) ∧
    (∀ m, m ≠ .hlt → b = map m → ∃ i : Instr, i.mnemonic = m ∧
      (∀ (k : Nat) (v : Byte), i.operandBytes[k]? = some v → s.pc.toNat + 1 + k < 256 →
        v = memGet s.mem (s.pc.toNat + 1 + k)) ∧
      engineStep map s = exec i { s with ir := b }) ∧
    ((∀ m, b ≠ map m) → engineStep map s = .next { s with
      ir := b, run := .faulted, fault := some ⟨.illegalInstruction, .none, s.pc, BitVec.ofNat 9 b.toNat⟩ })

/-- A step runs the decoded instruction: the bytes given to the decoder are those at `pc`, `pc + 1` and `pc + 2` as far
as cells exist, and when they decode to i the step is `exec i` at the state with IR latched, and nothing else. -/
def Obligations.StepRunsTheDecodedInstruction : Prop :=
  (∀ (s : State) (k : Nat), k < 3 → s.pc.toNat + k < 256 →
    (fetchWindow s)[k]? = some (memGet s.mem (s.pc.toNat + k))) ∧
  (∀ (s : State) (i : Instr) (rest : List Byte), s.run = .running → s.pc.toNat < 256 →
    decode (fetchWindow s) = .ok (i, rest) →
    step s = exec i { s with ir := memGet s.mem s.pc.toNat })

/-- For every injective OPCODE_MAP: where memory from `pc` on holds the encoding of i, the step is `exec i` at the state
with IR holding i's opcode. -/
def Obligations.StepRunsTheEncodedInstruction : Prop :=
  ∀ (map : OpcodeMap) (i : Instr) (s : State), map.Distinct → s.run = .running →
    (∀ (k : Nat) (v : Byte), (encodeWith map i)[k]? = some v →
      s.pc.toNat + k < 256 ∧ memGet s.mem (s.pc.toNat + k) = v) →
    engineStep map s = exec i { s with ir := map i.mnemonic }

/-- A fetch at 256 or above faults with kind FETCH and fetches nothing. Rests on the spec's own decisions D4 and D8. -/
def Obligations.FetchPastTheLastCellFaults : Prop :=
  ∀ s : State, s.run = .running → 256 ≤ s.pc.toNat →
    step s = .next { s with run := .faulted, fault := some ⟨.outOfBounds, .fetch, s.pc, s.pc⟩ }

/-- IR latches the byte fetched at `pc` in each step, and no instruction reads it: `exec` answers the same whatever IR
holds, and leaves it. -/
def Obligations.EachFetchLatchesIrAndNoneReadsIt : Prop :=
  (∀ s t : State, s.pc.toNat < 256 → step s = .next t → t.ir = memGet s.mem s.pc.toNat) ∧
  (∀ (i : Instr) (s t : State) (v : Byte), exec i s = .next t → exec i { s with ir := v } = .next { t with ir := v })

/-- Whatever IR held before, the host sees the same run, of any length. IR's value at reset is the model's choice (log
entry 4); this says that nothing rests on it. -/
def Obligations.IrIsUnobservable : Prop :=
  ∀ (n : Nat) (s : State) (v : Byte),
    match runFor n s, runFor n { s with ir := v } with
    | .halted t, .halted u => t.hostView = u.hostView
    | .faulted t, .faulted u => t.hostView = u.hostView
    | .cutShort t, .cutShort u => t.hostView = u.hostView
    | _, _ => False

/-- The engine answers a next state exactly while `RUN = RUNNING`: in no running state does a step stop, and in HALTED
and FAULTED no step is enabled. FAULTED is the spec's own decision D9. -/
def Obligations.StepIsEnabledExactlyWhileRunning : Prop :=
  ∀ s : State, (∃ t, step s = .next t) ↔ s.run = .running

/-- R164: from HALTED no later step is enabled and a run of any length leaves all state as it was; the only states with
no step enabled are HALTED and FAULTED, so there is no other wait state. -/
def Obligations.HaltedIsFinal : Prop :=
  (∀ s : State, s.run = .halted → (∀ t, step s ≠ .next t) ∧ ∀ n, runFor n s = .halted s) ∧
  (∀ s : State, (∀ t, step s ≠ .next t) → s.run = .halted ∨ s.run = .faulted)

/-- A run that ends by halting ends at an HLT: `pc` holds the address of the HLT opcode byte and IR that byte, which is
this machine's opcode for HLT. The program counter's stay is R163; the end of a run is the spec's decision D23. -/
def Obligations.RunHaltsOnlyAtHlt : Prop :=
  ∀ (n : Nat) (s t : State), s.run = .running → runFor n s = .halted t →
    t.run = .halted ∧ t.pc.toNat < 256 ∧ memGet t.mem t.pc.toNat = machineOpcodeMap .hlt ∧
      t.ir = machineOpcodeMap .hlt

/-- A JMP to its own address runs for ever: a run of any length is cut short, neither halted nor faulted, and the host
sees no change. (The spec marks this "derived", and treating it as a hang is its decision D18.) -/
def Obligations.JumpToItselfNeverEnds : Prop :=
  ∀ (s : State) (r : Byte) (d : RegIndex), s.run = .running → s.pc.toNat + 1 < 256 →
    memGet s.mem s.pc.toNat = machineOpcodeMap .jmp → memGet s.mem (s.pc.toNat + 1) = r → r.toNat = d.val →
    (s.reg d).toNat = s.pc.toNat →
    ∀ n, ∃ t, runFor n s = .cutShort t ∧ t.hostView = s.hostView

/-! ### Reset and load -/

/-- R24: after construction, and after loading any image, R0 to R6 are 0 and R7 is 0xF4. -/
def Obligations.RegistersAtReset : Prop :=
  State.reset.regs = #v[0#8, 0#8, 0#8, 0#8, 0#8, 0#8, 0#8, 0xF4#8] ∧
  ∀ (image : List Byte) (s : State), loadImage image = .next s → s.regs = State.reset.regs

/-- Loading an image of at most 256 bytes gives the reset state with byte i at `MEM[i]` and every other cell 0; a longer
image is refused. The reset values of FL, FAULT and OUT and the refusal are the spec's decisions D10, D13, D14, D15. -/
def Obligations.LoadPlacesTheImageInTheResetState : Prop :=
  (∀ image : List Byte, image.length ≤ 256 → ∃ s, loadImage image = .next s ∧
    s.regs = #v[0#8, 0#8, 0#8, 0#8, 0#8, 0#8, 0#8, 0xF4#8] ∧ s.pc = 0#9 ∧ s.fl = 0#8 ∧ s.run = .running ∧
    s.fault = none ∧ s.out = [] ∧ ∀ a : Nat, a < 256 → memGet s.mem a = image.getD a 0#8) ∧
  (∀ image : List Byte, 256 < image.length → loadImage image = .refused .imageTooLong)

/-- R201: whatever image is loaded, `pc` starts at 0 and the first step fetches the image's first byte. -/
def Obligations.EntryPointIsAddressZero : Prop :=
  ∀ (image : List Byte) (s : State), loadImage image = .next s →
    s.pc = 0#9 ∧ ∃ t, step s = .next t ∧ t.ir = image.getD 0 0#8

/-! ### Legal states -/

/-- Every step from a legal state leads to a legal state: memory canonical, FL bits 7 to 1 at 0, `pc` in 0..257, a fault
record exactly when FAULTED, the record a row of the catalogue with its address at `pc`. The range of `pc`, the record
and the catalogue rest on the spec's decisions D3 to D9, D13 and D20, the canonical memory on log entry 6. -/
def Obligations.StepKeepsLegalStates : Prop :=
  ∀ s t : State, s.Inv → step s = .next t → t.Inv

/-- The reset state is legal, and so is the state after loading any image that is not refused. That legal states have a
canonical memory is the model's choice (log entry 6). -/
def Obligations.ResetAndLoadedStatesAreLegal : Prop :=
  State.reset.Inv ∧ ∀ (image : List Byte) (s : State), loadImage image = .next s → s.Inv

/-- A canonical memory is determined by what its 256 cells read as (the model's form of memory, log entry 6). -/
def Obligations.EqualCellsMeanEqualMemories : Prop :=
  ∀ m m' : Memory, Memory.wf m → Memory.wf m' → (∀ a : Nat, a < 256 → memGet m a = memGet m' a) → m = m'

/-- On a canonical memory, a write sets its cell and changes no other cell and no other state, and the memory stays
canonical. That memory has a canonical form, assumed before the write and kept by it, is the model's choice (log entry 6,
DESIGN CHOICE), not the spec's. -/
def Obligations.MemWriteChangesOneCell : Prop :=
  ∀ (s : State) (a v : Byte), Memory.wf s.mem →
    (s.write a v).read a = v ∧ (∀ b, b ≠ a → (s.write a v).read b = s.read b) ∧
    { s.write a v with mem := s.mem } = s ∧ Memory.wf (s.write a v).mem

/-! ### Faults -/

/-- Which fault each instruction raises, and in what order the conditions are tried, against the table `faultOf` written
from the catalogue: with a record in the table, `exec` changes RUN and FAULT and nothing else; with none, it answers a
state that is not FAULTED, with FAULT and IR as they were and, but for HLT, still RUNNING. Rests on the spec's decisions
D4 to D9, D13, D19 and D25. -/
def Obligations.ExecFaultsAsTheCatalogueOrders : Prop :=
  ∀ (i : Instr) (s : State), s.run = .running → s.pc.toNat < 256 →
    (∀ f, faultOf i s = some f → exec i s = .next { s with run := .faulted, fault := some f }) ∧
    (faultOf i s = none → ∃ t, exec i s = .next t ∧ t.fault = s.fault ∧ t.ir = s.ir ∧
      t.run = if i = .hlt then .halted else .running)

/-- A step that ends FAULTED has changed RUN, FAULT and the IR that the fetch latched, and nothing else; the record's
address is the `pc` it started from. For faults other than IllegalInstruction this is the spec's decision D8. -/
def Obligations.FaultsArePrecise : Prop :=
  ∀ s t : State, step s = .next t → t.run = .faulted →
    ∃ f : FaultRecord, f.addr = s.pc ∧ t = { s with ir := t.ir, run := .faulted, fault := some f }

/-- No step records UnsupportedOperation. That it is unreachable is the spec's decision D20. -/
def Obligations.UnsupportedOperationIsNeverRaised : Prop :=
  ∀ (s t : State) (f : FaultRecord), step s = .next t → t.fault = some f → s.fault ≠ some f →
    f.code ≠ .unsupportedOperation

/-- The numbers under which the host reads a fault record, 0 where there is none: the spec's decision D13. -/
def Obligations.FaultRecordNumbers : Prop :=
  (∀ s : State, s.fault = none → s.faultCodeNumber = 0 ∧ s.faultKindNumber = 0) ∧
  (∀ (s : State) (f : FaultRecord), s.fault = some f →
    s.faultCodeNumber = (match f.code with
      | .illegalInstruction => 1 | .unsupportedOperation => 2 | .outOfBounds => 3) ∧
    s.faultKindNumber = (match f.kind with
      | .none => 0 | .fetch => 1 | .operand => 2 | .register => 3 | .spBelow0 => 4 | .spAbove255 => 5))

/-- An operand byte that would lie past the last cell is never seen: two instructions of one mnemonic whose operand bytes
agree wherever a cell holds them act alike. The byte the model gives the decoder there is its own choice (log entry 5). -/
def Obligations.OperandBytesPastTheEndAreNeverSeen : Prop :=
  ∀ (i j : Instr) (s : State), s.pc.toNat < 256 → i.mnemonic = j.mnemonic →
    (∀ k : Nat, s.pc.toNat + 1 + k < 256 → i.operandBytes[k]? = j.operandBytes[k]?) →
    exec i s = exec j s

/-! ### Frames -/

/-- R29: only CMP writes FL; ADD, SUB and MUL, when they complete, change their first register and `pc` and nothing else,
so that a wrap-around is recorded nowhere; and CMP leaves in E whether its registers are equal, whatever E was. -/
def Obligations.OnlyCmpWritesFlags : Prop :=
  (∀ (i : Instr) (s t : State), exec i s = .next t → i.mnemonic ≠ .cmp → t.fl = s.fl) ∧
  (∀ (i : Instr) (s t : State), exec i s = .next t → s.run = .running → t.run = .running →
    i.mnemonic = .add ∨ i.mnemonic = .sub ∨ i.mnemonic = .mul →
    t = { s with regs := t.regs, pc := t.pc } ∧ ∀ d, ¬ WritesReg i d → t.reg d = s.reg d) ∧
  (∀ (ra rb : Byte) (a b : RegIndex) (s : State), ra.toNat = a.val → rb.toNat = b.val → s.pc.toNat + 2 < 256 →
    ∃ t, exec (.cmp ra rb) s = .next t ∧ t.flagE = decide (s.reg a = s.reg b))

/-- R28: FL bits 7 to 1 are 0 in every state of every run, no instruction writes them, and none reads them: with any of
them inverted (h), an instruction acts the same and leaves them inverted. -/
def Obligations.FlagBitsSevenToOneAreZeroAndUnread : Prop :=
  (∀ s : State, Reachable s → s.fl &&& 0xFE#8 = 0#8) ∧
  (∀ (i : Instr) (s t : State), exec i s = .next t → t.fl &&& 0xFE#8 = s.fl &&& 0xFE#8) ∧
  (∀ (i : Instr) (s t : State) (h : Byte), h &&& 1#8 = 0#8 → exec i s = .next t →
    exec i { s with fl := s.fl ^^^ h } = .next { t with fl := t.fl ^^^ h })

/-- R34: OUT is empty at the start of a run; an instruction adds at most one byte at its end, and only PRN adds one, the
value of its register; none reads OUT: with any other bytes (o) in it, an instruction acts the same. -/
def Obligations.OutIsWrittenByPrnAloneAndUnread : Prop :=
  (∀ (image : List Byte) (s : State), loadImage image = .next s → s.out = []) ∧
  (∀ (i : Instr) (s t : State), exec i s = .next t → ∃ l : List Byte, t.out = s.out ++ l ∧
    (l ≠ [] → ∃ (r : Byte) (d : RegIndex), i = .prn r ∧ r.toNat = d.val ∧ l = [s.reg d]) ∧
    ∀ o : List Byte, exec i { s with out := o } = .next { t with out := o ++ l }) ∧
  (∀ (r : Byte) (d : RegIndex) (s : State), r.toNat = d.val → s.pc.toNat + 1 < 256 →
    ∃ t, exec (.prn r) s = .next t ∧ t.out = s.out ++ [s.reg d])

/-- R56: the loader writes memory before the run (loading gives a state in which no step has run, with the image's bytes
in their cells and every other cell 0), and during a run only PUSH and CALL write it. -/
def Obligations.OnlyPushAndCallWriteMemory : Prop :=
  (∀ (image : List Byte) (s : State), loadImage image = .next s →
    ∀ a : Nat, a < 256 → memGet s.mem a = image.getD a 0#8) ∧
  (∀ (i : Instr) (s t : State), exec i s = .next t → i.mnemonic ≠ .push → i.mnemonic ≠ .call → t.mem = s.mem) ∧
  (∀ s t : State, step s = .next t → t.mem ≠ s.mem →
    memGet s.mem s.pc.toNat = machineOpcodeMap .push ∨ memGet s.mem s.pc.toNat = machineOpcodeMap .call)

/-- Every cell but the one an instruction stores to reads as before: for PUSH and CALL that one is `pushAddress`, SP less
1, and no other instruction stores. (The spec marks its table of accesses "derived".) -/
def Obligations.OtherCellsReadAsBefore : Prop :=
  ∀ (i : Instr) (s t : State) (a : Byte), exec i s = .next t → storeAddress i s ≠ some a → t.read a = s.read a

/-- An instruction writes no register but those its row of the table gives. (The spec marks the table "derived".) -/
def Obligations.RegistersWrittenAreThoseTabulated : Prop :=
  ∀ (i : Instr) (s t : State) (d : RegIndex), exec i s = .next t → ¬ WritesReg i d → t.reg d = s.reg d

/-- A register that an instruction neither reads nor writes by its row of the table does not bear on it: with any value
in it the instruction acts the same and leaves that value; and only JEQ and JNE read FL.E, so that with any FL every
other instruction but CMP acts the same. (The spec marks the table "derived".) -/
def Obligations.RegistersReadAreThoseTabulated : Prop :=
  (∀ (i : Instr) (s t : State) (d : RegIndex) (v : Byte), exec i s = .next t →
    ¬ ReadsReg i s d → ¬ WritesReg i d → exec i (s.setReg d v) = .next (t.setReg d v)) ∧
  (∀ (i : Instr) (s t : State) (v : Byte), exec i s = .next t →
    i.mnemonic ≠ .jeq → i.mnemonic ≠ .jne → i.mnemonic ≠ .cmp →
    exec i { s with fl := v } = .next { t with fl := v })

/-- An instruction that raises no fault leaves `pc` at the net next-pc of the table, which is at most 257. Rests on the
spec's decisions D3, D11 and D12, and for CALL and RET on its reading C1 and C2 of the source. -/
def Obligations.ProgramCounterFollowsTheNetTable : Prop :=
  ∀ (i : Instr) (s t : State), s.pc.toNat < 256 → faultOf i s = none → exec i s = .next t →
    t.pc.toNat = netNextPc i s ∧ t.pc.toNat ≤ 257

/-! ### What each instruction does when it completes

Every condition is on the state and the operands alone, and the equation says the whole next state, so each is also the
instruction's frame. -/

/-- R66: LDI sets its register, whichever of the eight, to the immediate byte as it stands, for every byte. -/
def Obligations.LdiLoadsTheByteAsItIs : Prop :=
  ∀ (r imm : Byte) (d : RegIndex) (s : State), r.toNat = d.val → s.pc.toNat + 2 < 256 →
    exec (.ldi r imm) s = .next { s with regs := s.regs.set d.val imm, pc := s.pc + 3#9 }

/-- PRN appends the value of its register to OUT. The output as raw bytes is the spec's decision D14. -/
def Obligations.PrnAppendsTheRegister : Prop :=
  ∀ (r : Byte) (d : RegIndex) (s : State), r.toNat = d.val → s.pc.toNat + 1 < 256 →
    exec (.prn r) s = .next { s with out := s.out ++ [s.reg d], pc := s.pc + 2#9 }

/-- R114: ADD leaves `(u + v) mod 256` in its first register and changes nothing else but `pc`. -/
def Obligations.AddIsModulo256 : Prop :=
  ∀ (ra rb : Byte) (a b : RegIndex) (s : State), ra.toNat = a.val → rb.toNat = b.val → s.pc.toNat + 2 < 256 →
    ∃ w : Byte, w.toNat = ((s.reg a).toNat + (s.reg b).toNat) % 256 ∧
      ((s.reg a).toNat + (s.reg b).toNat ≤ 255 → w.toNat = (s.reg a).toNat + (s.reg b).toNat) ∧
      (255 < (s.reg a).toNat + (s.reg b).toNat → w.toNat = (s.reg a).toNat + (s.reg b).toNat - 256) ∧
      exec (.add ra rb) s = .next { s with regs := s.regs.set a.val w, pc := s.pc + 3#9 }

/-- R116: SUB leaves `(u − v) mod 256` in its first register and changes nothing else but `pc`. -/
def Obligations.SubIsModulo256 : Prop :=
  ∀ (ra rb : Byte) (a b : RegIndex) (s : State), ra.toNat = a.val → rb.toNat = b.val → s.pc.toNat + 2 < 256 →
    ∃ w : Byte, (w.toNat : Int) = (((s.reg a).toNat : Int) - ((s.reg b).toNat : Int)) % 256 ∧
      ((s.reg b).toNat ≤ (s.reg a).toNat → w.toNat = (s.reg a).toNat - (s.reg b).toNat) ∧
      ((s.reg a).toNat < (s.reg b).toNat → w.toNat = (s.reg a).toNat + 256 - (s.reg b).toNat) ∧
      exec (.sub ra rb) s = .next { s with regs := s.regs.set a.val w, pc := s.pc + 3#9 }

/-- R118: MUL leaves `(u × v) mod 256`, bits 7:0 of the 16-bit product, in its first register and changes nothing else
but `pc`. -/
def Obligations.MulKeepsTheLowByte : Prop :=
  ∀ (ra rb : Byte) (a b : RegIndex) (s : State), ra.toNat = a.val → rb.toNat = b.val → s.pc.toNat + 2 < 256 →
    ∃ w : Byte, w.toNat = ((s.reg a).toNat * (s.reg b).toNat) % 256 ∧
      w = (BitVec.ofNat 16 ((s.reg a).toNat * (s.reg b).toNat)).extractLsb' 0 8 ∧
      exec (.mul ra rb) s = .next { s with regs := s.regs.set a.val w, pc := s.pc + 3#9 }

/-- R120: CMP sets E to 1 exactly when the registers are equal, leaves both registers, and changes nothing else but
`pc`. -/
def Obligations.CmpSetsTheEqualFlag : Prop :=
  ∀ (ra rb : Byte) (a b : RegIndex) (s : State), ra.toNat = a.val → rb.toNat = b.val → s.pc.toNat + 2 < 256 →
    ∃ fl : Byte, (fl.getLsbD 0 = true ↔ s.reg a = s.reg b) ∧ fl &&& 0xFE#8 = s.fl &&& 0xFE#8 ∧
      exec (.cmp ra rb) s = .next { s with fl := fl, pc := s.pc + 3#9 }

/-- PUSH decrements SP and stores its register at the new SP; PUSH R7 stores the new SP. The order is the spec's decision
D12, and the stack check that the condition on SP avoids its decision D6. -/
def Obligations.PushStoresBelowTheStackPointer : Prop :=
  ∀ (r : Byte) (d : RegIndex) (s : State), r.toNat = d.val → s.pc.toNat + 1 < 256 → s.sp ≠ 0#8 →
    exec (.push r) s = .next { s with
      regs := s.regs.set 7 (s.sp - 1#8)
      mem := memSet s.mem (pushAddress s).toNat (if d = 7 then s.sp - 1#8 else s.reg d)
      pc := s.pc + 2#9 }

/-- POP reads the byte at SP into its register and then increments SP; POP R7 leaves the popped byte plus 1 in SP. The
order is the spec's decision D12, and the stack check that the conditions avoid its decision D7. -/
def Obligations.PopLoadsFromTheStackPointer : Prop :=
  (∀ (r : Byte) (d : RegIndex) (s : State), r.toNat = d.val → d ≠ 7 → s.pc.toNat + 1 < 256 → s.sp ≠ 255#8 →
    exec (.pop r) s = .next { s with
      regs := (s.regs.set d.val (s.read s.sp)).set 7 (s.sp + 1#8), pc := s.pc + 2#9 }) ∧
  (∀ s : State, s.pc.toNat + 1 < 256 → s.read s.sp ≠ 255#8 →
    exec (.pop 7#8) s = .next { s with regs := s.regs.set 7 (s.read s.sp + 1#8), pc := s.pc + 2#9 })

/-- CALL pushes the byte `a + 1` and enters at its register's value plus 1, the register read after the push. The entry
and the byte are the spec's reading C1 and C2 of the source (its own highest-risk reading I3, log entry 8); the order is its decision D12. -/
def Obligations.CallPushesAndEnters : Prop :=
  ∀ (r : Byte) (d : RegIndex) (s : State), r.toNat = d.val → s.pc.toNat + 1 < 256 → s.sp ≠ 0#8 →
    exec (.call r) s = .next { s with
      regs := s.regs.set 7 (s.sp - 1#8)
      mem := memSet s.mem (pushAddress s).toNat (BitVec.ofNat 8 (s.pc.toNat + 1))
      pc := BitVec.ofNat 9 ((if d = 7 then s.sp - 1#8 else s.reg d).toNat + 1) }

/-- RET pops a byte and goes to that byte plus 1; it needs no operand, so it completes at any `pc`. Rests on the spec's
reading C1, C2 and C13 of the source (log entry 8) and, for the condition on SP, on its decision D7. -/
def Obligations.RetPopsAndReturns : Prop :=
  ∀ s : State, s.sp ≠ 255#8 →
    exec .ret s = .next { s with
      regs := s.regs.set 7 (s.sp + 1#8), pc := BitVec.ofNat 9 ((s.read s.sp).toNat + 1) }

/-- JMP goes to the value of its register, exactly, and changes nothing else. -/
def Obligations.JmpGoesToTheRegister : Prop :=
  ∀ (r : Byte) (d : RegIndex) (s : State), r.toNat = d.val → s.pc.toNat + 1 < 256 →
    exec (.jmp r) s = .next { s with pc := BitVec.ofNat 9 (s.reg d).toNat }

/-- JEQ goes to the value of its register when E is 1; when E is 0 it goes to `a + 2`, at any `pc` and with any operand
byte. That the operand is then neither read nor checked is the spec's decision D25. -/
def Obligations.JeqBranchesWhenEqual : Prop :=
  (∀ (r : Byte) (d : RegIndex) (s : State), s.fl.getLsbD 0 = true → r.toNat = d.val → s.pc.toNat + 1 < 256 →
    exec (.jeq r) s = .next { s with pc := BitVec.ofNat 9 (s.reg d).toNat }) ∧
  (∀ (r : Byte) (s : State), s.fl.getLsbD 0 = false → exec (.jeq r) s = .next { s with pc := s.pc + 2#9 })

/-- JNE goes to the value of its register when E is 0; when E is 1 it goes to `a + 2`, at any `pc` and with any operand
byte. That the operand is then neither read nor checked is the spec's decision D25. -/
def Obligations.JneBranchesWhenNotEqual : Prop :=
  (∀ (r : Byte) (d : RegIndex) (s : State), s.fl.getLsbD 0 = false → r.toNat = d.val → s.pc.toNat + 1 < 256 →
    exec (.jne r) s = .next { s with pc := BitVec.ofNat 9 (s.reg d).toNat }) ∧
  (∀ (r : Byte) (s : State), s.fl.getLsbD 0 = true → exec (.jne r) s = .next { s with pc := s.pc + 2#9 })

/-- NOP changes `pc` and nothing else. -/
def Obligations.NopAdvances : Prop :=
  ∀ s : State, exec .nop s = .next { s with pc := s.pc + 1#9 }

/-- HLT sets RUN to HALTED and changes nothing else; `pc` keeps its address. -/
def Obligations.HltHaltsInPlace : Prop :=
  ∀ s : State, exec .hlt s = .next { s with run := .halted }

/-! ### Instructions together -/

/-- PUSH `r` then POP `q`, neither naming R7: `q` gets what `r` held, SP and the pushed cell are as the law says; and
PUSH R0, PUSH R1, POP R0, POP R1 swaps R0 and R1. (The spec marks the law "derived"; its checks are decisions D4 to D7; the
canonical memory assumed is log entry 6.) -/
def Obligations.PushThenPopRoundTrips : Prop :=
  (∀ (r q : Byte) (d e : RegIndex) (s : State), Memory.wf s.mem → r.toNat = d.val → q.toNat = e.val → d ≠ 7 → e ≠ 7 →
    1 ≤ s.sp.toNat → s.pc.toNat + 3 < 256 →
    ∃ t u, exec (.push r) s = .next t ∧ exec (.pop q) t = .next u ∧
      u.reg e = s.reg d ∧ u.sp = s.sp ∧ u.read (s.sp - 1#8) = s.reg d) ∧
  (∀ s : State, Memory.wf s.mem → 2 ≤ s.sp.toNat → s.pc.toNat + 7 < 256 →
    ∃ t u v w, exec (.push 0#8) s = .next t ∧ exec (.push 1#8) t = .next u ∧
      exec (.pop 0#8) u = .next v ∧ exec (.pop 1#8) v = .next w ∧
      w.reg 0 = s.reg 1 ∧ w.reg 1 = s.reg 0 ∧ w.sp = s.sp)

/-- CALL at `a`, for any register and target, then a RET at a state u whose SP is as the CALL left it and where the
stack cell still holds the pushed byte: RET goes to `a + 2` and SP is as before the CALL. (The spec marks the law
"derived"; it rests on its reading C1 and C2, log entry 8; the canonical memory assumed is log entry 6.) -/
def Obligations.RetReturnsPastTheCall : Prop :=
  ∀ (r : Byte) (d : RegIndex) (s : State), Memory.wf s.mem → r.toNat = d.val → s.pc.toNat + 1 < 256 → s.sp ≠ 0#8 →
    ∃ t, exec (.call r) s = .next t ∧
      ∀ u : State, u.sp = t.sp → u.read u.sp = t.read t.sp →
        ∃ w, exec .ret u = .next w ∧ w.pc.toNat = s.pc.toNat + 2 ∧ w.sp = s.sp

/-- Stack arithmetic never wraps: an instruction that raises no fault moves SP by exactly one, down for PUSH and CALL, up
for POP and RET, and for POP R7 up from the popped byte. Rests on the spec's decisions D6, D7 and D12. -/
def Obligations.StackPointerNeverWraps : Prop :=
  ∀ (i : Instr) (s t : State), faultOf i s = none → exec i s = .next t →
    (i.mnemonic = .push ∨ i.mnemonic = .call → t.sp.toNat + 1 = s.sp.toNat) ∧
    (i.mnemonic = .ret → t.sp.toNat = s.sp.toNat + 1) ∧
    (∀ r : Byte, i = .pop r → t.sp.toNat = (if r = 7#8 then s.read s.sp else s.sp).toNat + 1)

/-- A byte that PUSH stored is what the very next step fetches, when `pc` stands at its cell, as an opcode, and what it is
given as an operand when `pc` stands one or two cells before. (The spec marks this "derived"; its decision D26; the
canonical memory assumed is log entry 6.) -/
def Obligations.PushedByteIsFetchedAtOnce : Prop :=
  ∀ (r : Byte) (d : RegIndex) (s t : State), Memory.wf s.mem → r.toNat = d.val → d ≠ 7 → s.pc.toNat + 1 < 256 →
    s.sp ≠ 0#8 → exec (.push r) s = .next t →
    ∀ k : Nat, k < 3 → t.pc.toNat + k = s.sp.toNat - 1 → (fetchWindow t)[k]? = some (s.reg d)

end
end

