-- ==== Sys2Proof/Laws/Decode.lean ====
section
/-! SUPPORT. Sys2Proof/Laws/Decode.lean: the small lemmas of the decoder and the encoder. -/

namespace Sys2Proof

theorem Mnemonic.mem_all (m : Mnemonic) : m ∈ Mnemonic.all := by cases m <;> decide

/-- What the multiplexer answers is a mnemonic whose opcode is that byte (R63). -/
theorem decodeOpcode_sound {map : OpcodeMap} {b : Byte} {m : Mnemonic} (h : decodeOpcode map b = some m) : map m = b := by
  simpa using List.find?_some h

/-- The multiplexer answers ILLEGAL exactly when no mnemonic has that byte (R69). -/
theorem decodeOpcode_none {map : OpcodeMap} {b : Byte} : decodeOpcode map b = none ↔ ∀ m, map m ≠ b := by
  simp [decodeOpcode, Mnemonic.mem_all]

/-- The map of this machine gives distinct mnemonics distinct bytes (R15). -/
theorem machineOpcodeMap_distinct : machineOpcodeMap.Distinct := by
  intro m n
  cases m <;> cases n <;> decide

@[simp] theorem takeOne_cons (m : Mnemonic) (mk : Byte → Instr) (b : Byte) (rest : List Byte) :
    takeOne m mk (b :: rest) = .ok (mk b, rest) := rfl

@[simp] theorem takeTwo_cons (m : Mnemonic) (mk : Byte → Byte → Instr) (b c : Byte) (rest : List Byte) :
    takeTwo m mk (b :: c :: rest) = .ok (mk b c, rest) := rfl

/-- Taking the operands an instruction was written with gives that instruction back. -/
theorem decodeOperands_operandBytes (i : Instr) (rest : List Byte) :
    decodeOperands i.mnemonic (i.operandBytes ++ rest) = .ok (i, rest) := by
  cases i <;> rfl

/-- Two bytes are enough operands for any mnemonic (R60): with three bytes in hand nothing is truncated. -/
theorem decodeOperands_two (m : Mnemonic) (b c : Byte) :
    ∃ i rest, decodeOperands m [b, c] = .ok (i, rest) ∧ i.mnemonic = m := by
  cases m <;> exact ⟨_, _, rfl, rfl⟩

end Sys2Proof
end

