-- ==== Sys2Proof/Laws/Memory.lean ====
section
/-! SUPPORT. Sys2Proof/Laws/Memory.lean: reading after a write, and that every memory operation keeps the canonical
form. -/

namespace Sys2Proof.Machine

theorem memGet_memCons (a b : Nat) (v : Byte) (rest : Memory) (h : memGet rest a = Memory.unlisted) :
    memGet (memCons a v rest) b = if a = b then v else memGet rest b := by
  unfold memCons
  split
  · rename_i hv
    split
    · rename_i hab
      rw [← hab, h, hv]
    · rfl
  · rfl

/-- An address below every listed one, or between two listed ones, reads as unlisted. -/
theorem memGet_of_lt (m : Memory) (a : Nat) (h : ∀ c ∈ m, a < c.1) : memGet m a = Memory.unlisted := by
  induction m with
  | nil => rfl
  | cons c rest ih =>
    have hc := h c (by simp)
    simp only [memGet, if_neg (Nat.ne_of_gt hc)]
    exact ih fun d hd => h d (by simp [hd])

/-- Reading after a write: the written cell gives the value, every other cell what it held (R43). -/
theorem memGet_memSet (m : Memory) (a b : Nat) (v : Byte) (h : m.Pairwise fun c d => c.1 < d.1) :
    memGet (memSet m a v) b = if a = b then v else memGet m b := by
  induction m with
  | nil => simpa [memSet] using memGet_memCons a b v [] rfl
  | cons c rest ih =>
    obtain ⟨k, w⟩ := c
    rw [List.pairwise_cons] at h
    obtain ⟨hk, hrest⟩ := h
    simp only [memSet]
    split
    · rename_i hak
      refine memGet_memCons a b v _ (memGet_of_lt _ _ fun d hd => ?_)
      rcases List.mem_cons.mp hd with rfl | hd
      · exact hak
      · exact Nat.lt_trans hak (hk d hd)
    · split
      · rename_i hak
        subst hak
        rw [memGet_memCons a b v rest (memGet_of_lt _ _ hk)]
        by_cases hab : a = b <;> simp [memGet, hab]
      · rename_i hak
        simp only [memGet, ih hrest]
        by_cases hkb : k = b
        · subst hkb
          simp [hak]
        · simp [hkb]

theorem mem_memSet (m : Memory) (a : Nat) (v : Byte) (c : Host.Cell) (h : c ∈ memSet m a v) :
    c ∈ m ∨ (c = (a, v) ∧ v ≠ Memory.unlisted) := by
  have cons_case : ∀ rest : Memory, c ∈ memCons a v rest → c ∈ rest ∨ (c = (a, v) ∧ v ≠ Memory.unlisted) := by
    intro rest hc
    unfold memCons at hc
    split at hc
    · exact .inl hc
    · rename_i hv
      rcases List.mem_cons.mp hc with rfl | hc
      · exact .inr ⟨rfl, hv⟩
      · exact .inl hc
  induction m with
  | nil => exact cons_case _ h
  | cons d rest ih =>
    obtain ⟨k, w⟩ := d
    simp only [memSet] at h
    split at h
    · exact cons_case _ h
    · split at h
      · exact (cons_case _ h).imp (fun hc => by simp [hc]) id
      · rcases List.mem_cons.mp h with rfl | h
        · simp
        · exact (ih h).imp (fun hc => by simp [hc]) id

/-- A write of a cell keeps the canonical form. -/
theorem memSet_wf (m : Memory) (a : Nat) (v : Byte) (ha : a < Config.memSize) (h : Memory.wf m) :
    Memory.wf (memSet m a v) := by
  refine ⟨?_, fun c hc => ?_⟩
  · have hp := h.1
    clear h
    have cons_case : ∀ rest : Memory, (∀ d ∈ rest, a < d.1) → rest.Pairwise (fun c d => c.1 < d.1) →
        (memCons a v rest).Pairwise (fun c d => c.1 < d.1) := by
      intro rest hlt hr
      unfold memCons
      split
      · exact hr
      · exact List.pairwise_cons.mpr ⟨hlt, hr⟩
    induction m with
    | nil => exact cons_case [] (by simp) hp
    | cons d rest ih =>
      obtain ⟨k, w⟩ := d
      have hk := (List.pairwise_cons.mp hp).1
      have hrest := (List.pairwise_cons.mp hp).2
      simp only [memSet]
      split
      · rename_i hak
        refine cons_case _ (fun d hd => ?_) hp
        rcases List.mem_cons.mp hd with rfl | hd
        · exact hak
        · exact Nat.lt_trans hak (hk d hd)
      · split
        · rename_i hak
          subst hak
          exact cons_case rest hk hrest
        · refine List.pairwise_cons.mpr ⟨fun c hc => ?_, ih hrest⟩
          rcases mem_memSet rest a v c hc with hc | ⟨rfl, _⟩
          · exact hk c hc
          · simp only
            omega
  · rcases mem_memSet m a v c hc with hc | ⟨rfl, hv⟩
    · exact h.2 c hc
    · exact ⟨ha, hv⟩

/-- Placing bytes keeps the canonical form. -/
theorem memPlace_wf (bs : List Byte) : ∀ (m : Memory) (a : Nat), Memory.wf m → Memory.wf (memPlace m a bs) := by
  induction bs with
  | nil => exact fun m a h => h
  | cons b bs ih =>
    intro m a h
    refine ih _ _ ?_
    split
    · rename_i ha
      exact memSet_wf m a b ha h
    · exact h

/-- After placing bytes from `a` on, a cell holds its byte if it is one of theirs, else what it held (R190). -/
theorem memGet_memPlace (bs : List Byte) : ∀ (m : Memory) (a b : Nat), Memory.wf m →
    memGet (memPlace m a bs) b =
      if h : a ≤ b ∧ b < a + bs.length ∧ b < Config.memSize then bs[b - a]'(by omega) else memGet m b := by
  induction bs with
  | nil =>
    intro m a b _
    have : ¬(a ≤ b ∧ b < a + ([] : List Byte).length ∧ b < Config.memSize) := by
      simp
      omega
    rw [dif_neg this]
    rfl
  | cons v bs ih =>
    intro m a b hm
    have hm' : Memory.wf (if a < Config.memSize then memSet m a v else m) := by
      split
      · rename_i ha
        exact memSet_wf m a v ha hm
      · exact hm
    have hget : memGet (if a < Config.memSize then memSet m a v else m) b =
        if a = b ∧ a < Config.memSize then v else memGet m b := by
      split
      · rename_i ha
        simp [memGet_memSet m a b v hm.1, ha]
      · rename_i ha
        simp [ha]
    simp only [memPlace, ih _ (a + 1) b hm', hget]
    by_cases hab : a = b
    · subst hab
      by_cases hs : a < Config.memSize
      · have h1 : ¬(a + 1 ≤ a ∧ a < a + 1 + bs.length ∧ a < Config.memSize) := by omega
        have h2 : a ≤ a ∧ a < a + (v :: bs).length ∧ a < Config.memSize := by simp [hs]
        rw [dif_neg h1, dif_pos h2]
        simp [hs]
      · simp [hs]
    · by_cases hin : a + 1 ≤ b ∧ b < a + 1 + bs.length ∧ b < Config.memSize
      · have h2 : a ≤ b ∧ b < a + (v :: bs).length ∧ b < Config.memSize := by
          simp only [List.length_cons]
          omega
        rw [dif_pos hin, dif_pos h2]
        have hidx : b - a = (b - (a + 1)) + 1 := by omega
        simp only [hidx, List.getElem_cons_succ]
      · have h2 : ¬(a ≤ b ∧ b < a + (v :: bs).length ∧ b < Config.memSize) := by
          simp only [List.length_cons]
          omega
        rw [dif_neg hin, dif_neg h2]
        simp [hab]

/-- A write through a state keeps the canonical form. -/
theorem State.write_wf (s : State) (a v : Byte) (h : Memory.wf s.mem) : Memory.wf (s.write a v).mem :=
  memSet_wf s.mem a.toNat v a.isLt h

/-- Reading a cell after a write through a state (R42, R43). -/
theorem State.write_read (s : State) (a v b : Byte) (h : Memory.wf s.mem) :
    (s.write a v).read b = if a = b then v else s.read b := by
  have := memGet_memSet s.mem a.toNat b.toNat v h.1
  simpa [State.read, State.write, BitVec.toNat_inj] using this

theorem State.reset_mem_wf : Memory.wf State.reset.mem := by decide

/-- A loaded image leaves memory in its canonical form. -/
theorem loadImage_mem_wf (image : List Byte) (s : State) (h : loadImage image = .next s) : Memory.wf s.mem := by
  unfold loadImage at h
  split at h
  · cases h
    exact memPlace_wf image _ 0 State.reset_mem_wf
  · cases h

/-- Placing an instruction leaves memory in its canonical form. -/
theorem State.withFetchWord_mem_wf (s : State) (nbits w : Nat) (h : Memory.wf s.mem) :
    Memory.wf (s.withFetchWord nbits w).mem :=
  memPlace_wf _ _ _ h

end Sys2Proof.Machine
end

