-- ==== Sys2Proof/Laws/State.lean ====
section
/-! SUPPORT. Sys2Proof/Laws/State.lean: each named update of the state, field by field and accessor by accessor. -/

namespace Sys2Proof.Machine

/-! ### setReg -/

@[simp] theorem State.setReg_regs (s : State) (d : RegIndex) (v : Byte) : (s.setReg d v).regs = s.regs.set d.val v := rfl
@[simp] theorem State.setReg_pc (s : State) (d : RegIndex) (v : Byte) : (s.setReg d v).pc = s.pc := rfl
@[simp] theorem State.setReg_fl (s : State) (d : RegIndex) (v : Byte) : (s.setReg d v).fl = s.fl := rfl
@[simp] theorem State.setReg_mem (s : State) (d : RegIndex) (v : Byte) : (s.setReg d v).mem = s.mem := rfl
@[simp] theorem State.setReg_run (s : State) (d : RegIndex) (v : Byte) : (s.setReg d v).run = s.run := rfl
@[simp] theorem State.setReg_fault (s : State) (d : RegIndex) (v : Byte) : (s.setReg d v).fault = s.fault := rfl
@[simp] theorem State.setReg_out (s : State) (d : RegIndex) (v : Byte) : (s.setReg d v).out = s.out := rfl
@[simp] theorem State.setReg_ir (s : State) (d : RegIndex) (v : Byte) : (s.setReg d v).ir = s.ir := rfl
@[simp] theorem State.setReg_read (s : State) (d : RegIndex) (v : Byte) (c' : Byte) : (s.setReg d v).read c' = s.read c' := rfl
@[simp] theorem State.setReg_flagE (s : State) (d : RegIndex) (v : Byte) : (s.setReg d v).flagE = s.flagE := rfl

/-! ### setSp -/

@[simp] theorem State.setSp_regs (s : State) (v : Byte) : (s.setSp v).regs = s.regs.set 7 v := rfl
@[simp] theorem State.setSp_pc (s : State) (v : Byte) : (s.setSp v).pc = s.pc := rfl
@[simp] theorem State.setSp_fl (s : State) (v : Byte) : (s.setSp v).fl = s.fl := rfl
@[simp] theorem State.setSp_mem (s : State) (v : Byte) : (s.setSp v).mem = s.mem := rfl
@[simp] theorem State.setSp_run (s : State) (v : Byte) : (s.setSp v).run = s.run := rfl
@[simp] theorem State.setSp_fault (s : State) (v : Byte) : (s.setSp v).fault = s.fault := rfl
@[simp] theorem State.setSp_out (s : State) (v : Byte) : (s.setSp v).out = s.out := rfl
@[simp] theorem State.setSp_ir (s : State) (v : Byte) : (s.setSp v).ir = s.ir := rfl
@[simp] theorem State.setSp_read (s : State) (v : Byte) (c' : Byte) : (s.setSp v).read c' = s.read c' := rfl
@[simp] theorem State.setSp_flagE (s : State) (v : Byte) : (s.setSp v).flagE = s.flagE := rfl

/-! ### write -/

@[simp] theorem State.write_regs (s : State) (a v : Byte) : (s.write a v).regs = s.regs := rfl
@[simp] theorem State.write_pc (s : State) (a v : Byte) : (s.write a v).pc = s.pc := rfl
@[simp] theorem State.write_fl (s : State) (a v : Byte) : (s.write a v).fl = s.fl := rfl
@[simp] theorem State.write_mem (s : State) (a v : Byte) : (s.write a v).mem = memSet s.mem a.toNat v := rfl
@[simp] theorem State.write_run (s : State) (a v : Byte) : (s.write a v).run = s.run := rfl
@[simp] theorem State.write_fault (s : State) (a v : Byte) : (s.write a v).fault = s.fault := rfl
@[simp] theorem State.write_out (s : State) (a v : Byte) : (s.write a v).out = s.out := rfl
@[simp] theorem State.write_ir (s : State) (a v : Byte) : (s.write a v).ir = s.ir := rfl
@[simp] theorem State.write_reg (s : State) (a v : Byte) (e : RegIndex) : (s.write a v).reg e = s.reg e := rfl
@[simp] theorem State.write_sp (s : State) (a v : Byte) : (s.write a v).sp = s.sp := rfl
@[simp] theorem State.write_flagE (s : State) (a v : Byte) : (s.write a v).flagE = s.flagE := rfl

/-! ### setPc -/

@[simp] theorem State.setPc_regs (s : State) (t : Word9) : (s.setPc t).regs = s.regs := rfl
@[simp] theorem State.setPc_pc (s : State) (t : Word9) : (s.setPc t).pc = t := rfl
@[simp] theorem State.setPc_fl (s : State) (t : Word9) : (s.setPc t).fl = s.fl := rfl
@[simp] theorem State.setPc_mem (s : State) (t : Word9) : (s.setPc t).mem = s.mem := rfl
@[simp] theorem State.setPc_run (s : State) (t : Word9) : (s.setPc t).run = s.run := rfl
@[simp] theorem State.setPc_fault (s : State) (t : Word9) : (s.setPc t).fault = s.fault := rfl
@[simp] theorem State.setPc_out (s : State) (t : Word9) : (s.setPc t).out = s.out := rfl
@[simp] theorem State.setPc_ir (s : State) (t : Word9) : (s.setPc t).ir = s.ir := rfl
@[simp] theorem State.setPc_reg (s : State) (t : Word9) (e : RegIndex) : (s.setPc t).reg e = s.reg e := rfl
@[simp] theorem State.setPc_sp (s : State) (t : Word9) : (s.setPc t).sp = s.sp := rfl
@[simp] theorem State.setPc_read (s : State) (t : Word9) (c' : Byte) : (s.setPc t).read c' = s.read c' := rfl
@[simp] theorem State.setPc_flagE (s : State) (t : Word9) : (s.setPc t).flagE = s.flagE := rfl

/-! ### emit -/

@[simp] theorem State.emit_regs (s : State) (v : Byte) : (s.emit v).regs = s.regs := rfl
@[simp] theorem State.emit_pc (s : State) (v : Byte) : (s.emit v).pc = s.pc := rfl
@[simp] theorem State.emit_fl (s : State) (v : Byte) : (s.emit v).fl = s.fl := rfl
@[simp] theorem State.emit_mem (s : State) (v : Byte) : (s.emit v).mem = s.mem := rfl
@[simp] theorem State.emit_run (s : State) (v : Byte) : (s.emit v).run = s.run := rfl
@[simp] theorem State.emit_fault (s : State) (v : Byte) : (s.emit v).fault = s.fault := rfl
@[simp] theorem State.emit_out (s : State) (v : Byte) : (s.emit v).out = s.out ++ [v] := rfl
@[simp] theorem State.emit_ir (s : State) (v : Byte) : (s.emit v).ir = s.ir := rfl
@[simp] theorem State.emit_reg (s : State) (v : Byte) (e : RegIndex) : (s.emit v).reg e = s.reg e := rfl
@[simp] theorem State.emit_sp (s : State) (v : Byte) : (s.emit v).sp = s.sp := rfl
@[simp] theorem State.emit_read (s : State) (v : Byte) (c' : Byte) : (s.emit v).read c' = s.read c' := rfl
@[simp] theorem State.emit_flagE (s : State) (v : Byte) : (s.emit v).flagE = s.flagE := rfl

/-! ### latchIr -/

@[simp] theorem State.latchIr_regs (s : State) (b : Byte) : (s.latchIr b).regs = s.regs := rfl
@[simp] theorem State.latchIr_pc (s : State) (b : Byte) : (s.latchIr b).pc = s.pc := rfl
@[simp] theorem State.latchIr_fl (s : State) (b : Byte) : (s.latchIr b).fl = s.fl := rfl
@[simp] theorem State.latchIr_mem (s : State) (b : Byte) : (s.latchIr b).mem = s.mem := rfl
@[simp] theorem State.latchIr_run (s : State) (b : Byte) : (s.latchIr b).run = s.run := rfl
@[simp] theorem State.latchIr_fault (s : State) (b : Byte) : (s.latchIr b).fault = s.fault := rfl
@[simp] theorem State.latchIr_out (s : State) (b : Byte) : (s.latchIr b).out = s.out := rfl
@[simp] theorem State.latchIr_ir (s : State) (b : Byte) : (s.latchIr b).ir = b := rfl
@[simp] theorem State.latchIr_reg (s : State) (b : Byte) (e : RegIndex) : (s.latchIr b).reg e = s.reg e := rfl
@[simp] theorem State.latchIr_sp (s : State) (b : Byte) : (s.latchIr b).sp = s.sp := rfl
@[simp] theorem State.latchIr_read (s : State) (b : Byte) (c' : Byte) : (s.latchIr b).read c' = s.read c' := rfl
@[simp] theorem State.latchIr_flagE (s : State) (b : Byte) : (s.latchIr b).flagE = s.flagE := rfl

/-! ### halt -/

@[simp] theorem State.halt_regs (s : State) : s.halt.regs = s.regs := rfl
@[simp] theorem State.halt_pc (s : State) : s.halt.pc = s.pc := rfl
@[simp] theorem State.halt_fl (s : State) : s.halt.fl = s.fl := rfl
@[simp] theorem State.halt_mem (s : State) : s.halt.mem = s.mem := rfl
@[simp] theorem State.halt_run (s : State) : s.halt.run = .halted := rfl
@[simp] theorem State.halt_fault (s : State) : s.halt.fault = s.fault := rfl
@[simp] theorem State.halt_out (s : State) : s.halt.out = s.out := rfl
@[simp] theorem State.halt_ir (s : State) : s.halt.ir = s.ir := rfl
@[simp] theorem State.halt_reg (s : State) (e : RegIndex) : s.halt.reg e = s.reg e := rfl
@[simp] theorem State.halt_sp (s : State) : s.halt.sp = s.sp := rfl
@[simp] theorem State.halt_read (s : State) (c' : Byte) : s.halt.read c' = s.read c' := rfl
@[simp] theorem State.halt_flagE (s : State) : s.halt.flagE = s.flagE := rfl

/-! ### setFlagE -/

@[simp] theorem State.setFlagE_regs (s : State) (b : Bool) : (s.setFlagE b).regs = s.regs := rfl
@[simp] theorem State.setFlagE_pc (s : State) (b : Bool) : (s.setFlagE b).pc = s.pc := rfl
@[simp] theorem State.setFlagE_fl (s : State) (b : Bool) : (s.setFlagE b).fl = (s.fl &&& 0xFE#8) ||| (if b then 1#8 else 0#8) := rfl
@[simp] theorem State.setFlagE_mem (s : State) (b : Bool) : (s.setFlagE b).mem = s.mem := rfl
@[simp] theorem State.setFlagE_run (s : State) (b : Bool) : (s.setFlagE b).run = s.run := rfl
@[simp] theorem State.setFlagE_fault (s : State) (b : Bool) : (s.setFlagE b).fault = s.fault := rfl
@[simp] theorem State.setFlagE_out (s : State) (b : Bool) : (s.setFlagE b).out = s.out := rfl
@[simp] theorem State.setFlagE_ir (s : State) (b : Bool) : (s.setFlagE b).ir = s.ir := rfl
@[simp] theorem State.setFlagE_reg (s : State) (b : Bool) (e : RegIndex) : (s.setFlagE b).reg e = s.reg e := rfl
@[simp] theorem State.setFlagE_sp (s : State) (b : Bool) : (s.setFlagE b).sp = s.sp := rfl
@[simp] theorem State.setFlagE_read (s : State) (b : Bool) (c' : Byte) : (s.setFlagE b).read c' = s.read c' := rfl

/-! ### takeFault -/

@[simp] theorem State.takeFault_regs (s : State) (c : FaultCode) (k : FaultKind) (v : Word9) : (s.takeFault c k v).regs = s.regs := rfl
@[simp] theorem State.takeFault_pc (s : State) (c : FaultCode) (k : FaultKind) (v : Word9) : (s.takeFault c k v).pc = s.pc := rfl
@[simp] theorem State.takeFault_fl (s : State) (c : FaultCode) (k : FaultKind) (v : Word9) : (s.takeFault c k v).fl = s.fl := rfl
@[simp] theorem State.takeFault_mem (s : State) (c : FaultCode) (k : FaultKind) (v : Word9) : (s.takeFault c k v).mem = s.mem := rfl
@[simp] theorem State.takeFault_run (s : State) (c : FaultCode) (k : FaultKind) (v : Word9) : (s.takeFault c k v).run = .faulted := rfl
@[simp] theorem State.takeFault_fault (s : State) (c : FaultCode) (k : FaultKind) (v : Word9) : (s.takeFault c k v).fault = some ⟨c, k, s.pc, v⟩ := rfl
@[simp] theorem State.takeFault_out (s : State) (c : FaultCode) (k : FaultKind) (v : Word9) : (s.takeFault c k v).out = s.out := rfl
@[simp] theorem State.takeFault_ir (s : State) (c : FaultCode) (k : FaultKind) (v : Word9) : (s.takeFault c k v).ir = s.ir := rfl
@[simp] theorem State.takeFault_reg (s : State) (c : FaultCode) (k : FaultKind) (v : Word9) (e : RegIndex) : (s.takeFault c k v).reg e = s.reg e := rfl
@[simp] theorem State.takeFault_sp (s : State) (c : FaultCode) (k : FaultKind) (v : Word9) : (s.takeFault c k v).sp = s.sp := rfl
@[simp] theorem State.takeFault_read (s : State) (c : FaultCode) (k : FaultKind) (v : Word9) (c' : Byte) : (s.takeFault c k v).read c' = s.read c' := rfl
@[simp] theorem State.takeFault_flagE (s : State) (c : FaultCode) (k : FaultKind) (v : Word9) : (s.takeFault c k v).flagE = s.flagE := rfl

/-! ### The accessors over the updates that do change them -/

theorem State.setReg_reg (s : State) (d : RegIndex) (v : Byte) (e : RegIndex) :
    (s.setReg d v).reg e = if d = e then v else s.reg e := by
  simp [State.reg, State.setReg, Vector.getElem_set, Fin.ext_iff]

@[simp] theorem State.setReg_reg_same (s : State) (d : RegIndex) (v : Byte) : (s.setReg d v).reg d = v := by
  simp [State.setReg_reg]

theorem State.setReg_reg_other (s : State) (d e : RegIndex) (v : Byte) (h : d ≠ e) : (s.setReg d v).reg e = s.reg e := by
  simp [State.setReg_reg, h]

@[simp] theorem State.setReg_sp (s : State) (d : RegIndex) (v : Byte) :
    (s.setReg d v).sp = if d = Config.spIndex then v else s.sp := s.setReg_reg d v Config.spIndex

@[simp] theorem State.setSp_sp (s : State) (v : Byte) : (s.setSp v).sp = v := s.setReg_reg_same Config.spIndex v

@[simp] theorem State.setSp_reg (s : State) (v : Byte) (e : RegIndex) :
    (s.setSp v).reg e = if Config.spIndex = e then v else s.reg e := s.setReg_reg Config.spIndex v e

/-- E reads back as it was written (R119). -/
@[simp] theorem State.setFlagE_flagE (s : State) (b : Bool) : (s.setFlagE b).flagE = b := by
  cases b <;> simp [State.flagE, State.setFlagE]

/-- A write of E leaves bits 7 to 1 as they were (R28). -/
theorem State.setFlagE_high (s : State) (b : Bool) : (s.setFlagE b).fl &&& 0xFE#8 = s.fl &&& 0xFE#8 := by
  obtain ⟨_, _, fl, _, _, _, _, _⟩ := s
  revert fl
  cases b <;> simp only [State.setFlagE] <;> decide

end Sys2Proof.Machine
end

