-- ==== Sys2Proof/Laws/Operands.lean ====
section
/-! SUPPORT. Sys2Proof/Laws/Operands.lean: for each shared operation, once, everything it can answer. -/

namespace Sys2Proof.Machine

/-- `raise` answers the faulted state and nothing else (R172). -/
theorem raise_eq (c : FaultCode) (k : FaultKind) (v : Word9) (s : State) : raise c k v s = .next (s.takeFault c k v) := rfl

theorem withOperand_of_lt {k : Nat} {s : State} {go : Res} (h : s.pc.toNat + k < 256) : withOperand k s go = go :=
  if_pos h

theorem withOperand_of_ge {k : Nat} {s : State} {go : Res} (h : 256 ≤ s.pc.toNat + k) :
    withOperand k s go = .next (s.takeFault .outOfBounds .operand (BitVec.ofNat 9 (s.pc.toNat + k))) :=
  if_neg (Nat.not_lt.mpr h)

/-- The operand check goes on, or answers the OPERAND fault (R82). -/
theorem withOperand_cases (k : Nat) (s : State) (go : Res) :
    (s.pc.toNat + k < 256 ∧ withOperand k s go = go) ∨
    (256 ≤ s.pc.toNat + k ∧
      withOperand k s go = .next (s.takeFault .outOfBounds .operand (BitVec.ofNat 9 (s.pc.toNat + k)))) := by
  rcases Nat.lt_or_ge (s.pc.toNat + k) 256 with h | h
  · exact .inl ⟨h, withOperand_of_lt h⟩
  · exact .inr ⟨h, withOperand_of_ge h⟩

theorem withReg_of_eq {r : Byte} {s : State} {go : RegIndex → Res} (d : RegIndex) (h : r.toNat = d.val) :
    withReg r s go = go d := by
  have hd : r.toNat < Config.nreg := h ▸ d.isLt
  simp only [withReg, dif_pos hd]
  congr 1
  exact Fin.ext h

theorem withReg_of_ge {r : Byte} {s : State} {go : RegIndex → Res} (h : 8 ≤ r.toNat) :
    withReg r s go = .next (s.takeFault .outOfBounds .register (r.setWidth 9)) :=
  dif_neg (Nat.not_lt.mpr h)

/-- The register check goes on with the register the byte names, or answers the REGISTER fault (R67). -/
theorem withReg_cases (r : Byte) (s : State) (go : RegIndex → Res) :
    (∃ d : RegIndex, r.toNat = d.val ∧ withReg r s go = go d) ∨
    (8 ≤ r.toNat ∧ withReg r s go = .next (s.takeFault .outOfBounds .register (r.setWidth 9))) := by
  rcases Nat.lt_or_ge r.toNat 8 with h | h
  · exact .inl ⟨⟨r.toNat, h⟩, rfl, withReg_of_eq _ rfl⟩
  · exact .inr ⟨h, withReg_of_ge h⟩

theorem withPush_of_ne {s : State} {go : State → Res} (h : s.sp ≠ 0#8) : withPush s go = go (s.setSp (pushAddress s)) :=
  if_neg h

theorem withPush_of_eq {s : State} {go : State → Res} (h : s.sp = 0#8) :
    withPush s go = .next (s.takeFault .outOfBounds .spBelow0 0#9) :=
  if_pos h

/-- A push goes on with SP decremented, or answers the SP_BELOW_0 fault (R131). -/
theorem withPush_cases (s : State) (go : State → Res) :
    (s.sp ≠ 0#8 ∧ withPush s go = go (s.setSp (pushAddress s))) ∨
    (s.sp = 0#8 ∧ withPush s go = .next (s.takeFault .outOfBounds .spBelow0 0#9)) := by
  by_cases h : s.sp = 0#8
  · exact .inr ⟨h, withPush_of_eq h⟩
  · exact .inl ⟨h, withPush_of_ne h⟩

theorem withPop_of_ne {sp : Byte} {s : State} {go : Res} (h : sp ≠ 255#8) : withPop sp s go = go :=
  if_neg h

theorem withPop_of_eq {sp : Byte} {s : State} {go : Res} (h : sp = 255#8) :
    withPop sp s go = .next (s.takeFault .outOfBounds .spAbove255 255#9) :=
  if_pos h

/-- A pop goes on, or answers the SP_ABOVE_255 fault (R133). -/
theorem withPop_cases (sp : Byte) (s : State) (go : Res) :
    (sp ≠ 255#8 ∧ withPop sp s go = go) ∨
    (sp = 255#8 ∧ withPop sp s go = .next (s.takeFault .outOfBounds .spAbove255 255#9)) := by
  by_cases h : sp = 255#8
  · exact .inr ⟨h, withPop_of_eq h⟩
  · exact .inl ⟨h, withPop_of_ne h⟩

/-- Everything `aluInstr` can answer: an OPERAND fault, a REGISTER fault, or the ALU's result and `pc + 3` (R113, R174). -/
theorem aluInstr_cases (op : AluOp) (ra rb : Byte) (s : State) :
    (∃ k : Nat, (k = 1 ∨ k = 2) ∧ 256 ≤ s.pc.toNat + k ∧
      aluInstr op ra rb s = .next (s.takeFault .outOfBounds .operand (BitVec.ofNat 9 (s.pc.toNat + k)))) ∨
    (∃ r : Byte, (r = ra ∨ r = rb) ∧ s.pc.toNat + 2 < 256 ∧ 8 ≤ r.toNat ∧
      aluInstr op ra rb s = .next (s.takeFault .outOfBounds .register (r.setWidth 9))) ∨
    (∃ a b : RegIndex, ra.toNat = a.val ∧ rb.toNat = b.val ∧ s.pc.toNat + 2 < 256 ∧
      aluInstr op ra rb s = .next ((aluApply op a b s).setPc (s.pc + 3#9))) := by
  unfold aluInstr
  rcases withOperand_cases 1 s _ with ⟨_, e⟩ | ⟨h, e⟩ <;> rw [e]
  · rcases withOperand_cases 2 s _ with ⟨h2, e⟩ | ⟨h, e⟩ <;> rw [e]
    · rcases withReg_cases ra s _ with ⟨a, ha, e⟩ | ⟨h, e⟩ <;> rw [e]
      · rcases withReg_cases rb s _ with ⟨b, hb, e⟩ | ⟨h, e⟩ <;> rw [e]
        · exact .inr (.inr ⟨a, b, ha, hb, h2, rfl⟩)
        · exact .inr (.inl ⟨rb, .inr rfl, h2, h, rfl⟩)
      · exact .inr (.inl ⟨ra, .inl rfl, h2, h, rfl⟩)
    · exact .inl ⟨2, .inr rfl, h, rfl⟩
  · exact .inl ⟨1, .inl rfl, h, rfl⟩

/-- Everything `jump` can answer: an OPERAND fault, a REGISTER fault, or `pc` at the register's value (R145). -/
theorem jump_cases (r : Byte) (s : State) :
    (256 ≤ s.pc.toNat + 1 ∧
      jump r s = .next (s.takeFault .outOfBounds .operand (BitVec.ofNat 9 (s.pc.toNat + 1)))) ∨
    (s.pc.toNat + 1 < 256 ∧ 8 ≤ r.toNat ∧ jump r s = .next (s.takeFault .outOfBounds .register (r.setWidth 9))) ∨
    (∃ d : RegIndex, r.toNat = d.val ∧ s.pc.toNat + 1 < 256 ∧ jump r s = .next (s.setPc (toPc (s.reg d)))) := by
  unfold jump
  rcases withOperand_cases 1 s _ with ⟨h1, e⟩ | ⟨h, e⟩ <;> rw [e]
  · rcases withReg_cases r s _ with ⟨d, hd, e⟩ | ⟨h, e⟩ <;> rw [e]
    · exact .inr (.inr ⟨d, hd, h1, rfl⟩)
    · exact .inr (.inl ⟨h1, h, rfl⟩)
  · exact .inl ⟨h, rfl⟩

theorem branch_taken (r : Byte) (s : State) : branch true r s = jump r s := rfl

theorem branch_not_taken (r : Byte) (s : State) : branch false r s = .next (s.setPc (s.pc + 2#9)) := rfl

/-- The ALU writes at most its first register, and the flag alone for CMP (R110). -/
theorem aluApply_frame (op : AluOp) (ra rb : RegIndex) (s : State) :
    (aluApply op ra rb s).pc = s.pc ∧ (aluApply op ra rb s).mem = s.mem ∧ (aluApply op ra rb s).out = s.out ∧
    (aluApply op ra rb s).run = s.run ∧ (aluApply op ra rb s).fault = s.fault ∧ (aluApply op ra rb s).ir = s.ir ∧
    (∀ d, d ≠ ra → (aluApply op ra rb s).reg d = s.reg d) ∧
    (op ≠ .cmp → (aluApply op ra rb s).fl = s.fl) ∧ (op = .cmp → (aluApply op ra rb s).regs = s.regs) := by
  refine ⟨?_, ?_, ?_, ?_, ?_, ?_, fun d hd => ?_, ?_, ?_⟩
  case refine_7 => cases op <;> simp [aluApply, State.setReg_reg, Ne.symm hd]
  all_goals cases op <;> simp [aluApply]

end Sys2Proof.Machine
end

