-- ==== Sys2Proof/Laws/PerInstr.lean ====
section
/-! SUPPORT. Sys2Proof/Laws/PerInstr.lean: statements made of every instruction as syntax, one lemma per constructor. -/

namespace Sys2Proof.Laws.EncodedForm

/-- The form of an instruction's bytes (R60, R61): its opcode byte, then as many operand bytes as its mnemonic's format
has, the register operand bytes first among them. -/
def Statement (i : Instr) : Prop :=
  ∀ map : OpcodeMap, ∃ tail : List Byte,
    encodeWith map i = map i.mnemonic :: (i.registerBytes ++ tail) ∧
    (i.registerBytes ++ tail).length = i.mnemonic.operandCount

theorem ldi (r imm : Byte) : Statement (.ldi r imm) := fun _ => ⟨[imm], rfl, rfl⟩
theorem prn (r : Byte) : Statement (.prn r) := fun _ => ⟨[], rfl, rfl⟩
theorem add (ra rb : Byte) : Statement (.add ra rb) := fun _ => ⟨[], rfl, rfl⟩
theorem sub (ra rb : Byte) : Statement (.sub ra rb) := fun _ => ⟨[], rfl, rfl⟩
theorem mul (ra rb : Byte) : Statement (.mul ra rb) := fun _ => ⟨[], rfl, rfl⟩
theorem cmp (ra rb : Byte) : Statement (.cmp ra rb) := fun _ => ⟨[], rfl, rfl⟩
theorem push (r : Byte) : Statement (.push r) := fun _ => ⟨[], rfl, rfl⟩
theorem pop (r : Byte) : Statement (.pop r) := fun _ => ⟨[], rfl, rfl⟩
theorem call (r : Byte) : Statement (.call r) := fun _ => ⟨[], rfl, rfl⟩
theorem ret : Statement .ret := fun _ => ⟨[], rfl, rfl⟩
theorem jmp (r : Byte) : Statement (.jmp r) := fun _ => ⟨[], rfl, rfl⟩
theorem jeq (r : Byte) : Statement (.jeq r) := fun _ => ⟨[], rfl, rfl⟩
theorem jne (r : Byte) : Statement (.jne r) := fun _ => ⟨[], rfl, rfl⟩
theorem nop : Statement .nop := fun _ => ⟨[], rfl, rfl⟩
theorem hlt : Statement .hlt := fun _ => ⟨[], rfl, rfl⟩

end Sys2Proof.Laws.EncodedForm
end

