-- ==== Sys2Proof/Tests/Slice0.lean ====
section
/-! SUPPORT. Sys2Proof/Tests/Slice0.lean: tests of single steps against the vectors of spec/95_test_vectors.md, the
well-formedness smoke test, words written out from the encoding tables, and a witness for each statement's hypotheses. -/

namespace Sys2Proof.Tests
open Sys2Proof.Machine

/-! ### Helpers -/

/-- The reset state with `pc` moved, bytes stored from there on, and registers set. -/
def demo (pc : Nat) (bytes : List Byte) (regs : List (RegIndex × Byte) := []) : State :=
  regs.foldl (fun s c => s.setReg c.1 c.2)
    { State.reset with pc := BitVec.ofNat 9 pc, mem := memPlace [] pc bytes }

/-- The next state, if that is the answer. -/
def nextOf : Res → Option State
  | .next t => some t
  | .fault _ => none
  | .refused _ => none

/-- What a step leaves of the parts named by `view`. -/
def after {α : Type} (s : State) (view : State → α) : Option α := (nextOf (step s)).map view

/-! ### Well-formedness -/

theorem test_wellFormed_accepts : (Instr.add 7#8 0#8).WellFormed := by decide
theorem test_wellFormed_refuses_first_register : ¬ (Instr.add 8#8 0#8).WellFormed := by decide
theorem test_wellFormed_refuses_second_register : ¬ (Instr.cmp 0#8 8#8).WellFormed := by decide
theorem test_wellFormed_refuses_only_register : ¬ (Instr.push 255#8).WellFormed := by decide
theorem test_wellFormed_ignores_immediate : (Instr.ldi 0#8 255#8).WellFormed := by decide

/-! ### Decoding: each constructor's word, written out from 30_encoding.md sections 1 and 2 -/

theorem test_decode_ldi : decode [0b10000010#8, 5#8, 255#8] = .ok (.ldi 5#8 255#8, []) := by decide
theorem test_decode_prn : decode [0b01000111#8, 7#8] = .ok (.prn 7#8, []) := by decide
theorem test_decode_add : decode [0b10100000#8, 0#8, 1#8] = .ok (.add 0#8 1#8, []) := by decide
theorem test_decode_sub : decode [0b10100001#8, 1#8, 0#8] = .ok (.sub 1#8 0#8, []) := by decide
theorem test_decode_mul : decode [0b10100010#8, 2#8, 3#8] = .ok (.mul 2#8 3#8, []) := by decide
theorem test_decode_cmp : decode [0b10100111#8, 3#8, 2#8] = .ok (.cmp 3#8 2#8, []) := by decide
theorem test_decode_push : decode [0b01000101#8, 4#8] = .ok (.push 4#8, []) := by decide
theorem test_decode_pop : decode [0b01000110#8, 10#8] = .ok (.pop 10#8, []) := by decide
theorem test_decode_call : decode [0b01010000#8, 1#8] = .ok (.call 1#8, []) := by decide
theorem test_decode_ret : decode [0b00010001#8, 9#8] = .ok (.ret, [9#8]) := by decide
theorem test_decode_jmp : decode [0b01010100#8, 3#8] = .ok (.jmp 3#8, []) := by decide
theorem test_decode_jeq : decode [0b01010101#8, 9#8] = .ok (.jeq 9#8, []) := by decide
theorem test_decode_jne : decode [0b01010110#8, 6#8] = .ok (.jne 6#8, []) := by decide
theorem test_decode_nop : decode [0b00000000#8] = .ok (.nop, []) := by decide
theorem test_decode_hlt : decode [0b00000001#8] = .ok (.hlt, []) := by decide
theorem test_decode_refuses_illegal : decode [0xFF#8, 0#8, 0#8] = .error (.illegalOpcode 0xFF#8) := by decide
theorem test_decode_refuses_truncated : decode [0x82#8, 0#8] = .error (.truncated .ldi) := by decide
theorem test_decode_refuses_empty : decode [] = .error .empty := by decide
theorem test_encode_ldi : encode (.ldi 0#8 8#8) = [0x82#8, 0x00#8, 0x08#8] := by decide
theorem test_tableWord_add : decodeTableWord 24 0x0100A0 = some (.add 0#8 1#8) := by decide
theorem test_tableWord_opcode_only : decodeTableWord 8 0xFF82 = some (.ldi 0#8 0#8) := by decide
theorem test_text : (Instr.ldi 0#8 42#8).text = "LDI R0, 42" := by decide

/-- The table word runs as the first instruction after reset. -/
theorem test_withFetchWord : after (State.reset.withFetchWord 24 0x080082) (fun t => (t.reg 0, t.pc)) = some (8#8, 3#9) := by
  decide

/-! ### Single steps: vectors of 95_test_vectors.md section 2, named by their ids -/

theorem test_add_A1 : after (demo 0 [0xA0#8, 0#8, 1#8] [(0, 255#8), (1, 1#8)]) (fun t => (t.reg 0, t.pc, t.fl)) =
    some (0#8, 3#9, 0#8) := by decide
theorem test_add_A20 : after (demo 254 [0xA0#8, 9#8]) (fun t => (t.fault, t.run)) =
    some (some ⟨.outOfBounds, .operand, 254#9, 256#9⟩, .faulted) := by decide
theorem test_sub_A5 : after (demo 0 [0xA1#8, 0#8, 1#8] [(0, 5#8), (1, 7#8)]) (fun t => (t.reg 0, t.reg 1)) =
    some (254#8, 7#8) := by decide
theorem test_sub_A7 : after (demo 0 [0xA1#8, 1#8, 0#8] [(0, 7#8), (1, 5#8)]) (fun t => (t.reg 1, t.reg 0)) =
    some (254#8, 7#8) := by decide
theorem test_mul_A8 : after (demo 0 [0xA2#8, 0#8, 0#8] [(0, 255#8)]) (·.reg 0) = some 1#8 := by decide
theorem test_mul_A21 : after (demo 253 [0xA2#8, 0#8, 0#8] [(0, 3#8)]) (fun t => (t.reg 0, t.pc)) =
    some (9#8, 256#9) := by decide
theorem test_cmp_A13 : after (demo 0 [0xA7#8, 0#8, 1#8] [(0, 5#8), (1, 5#8)]) (fun t => (t.fl, t.reg 0, t.pc)) =
    some (1#8, 5#8, 3#9) := by decide
theorem test_cmp_A16 : after { demo 0 [0xA7#8, 0#8, 1#8] [(0, 1#8), (1, 2#8)] with fl := 1#8 } (·.fl) = some 0#8 := by
  decide
theorem test_ldi_L3 : after (demo 0 [0x82#8, 7#8, 0#8]) (fun t => (t.sp, t.pc)) = some (0#8, 3#9) := by decide
theorem test_ldi_L6 : after (demo 255 [0x82#8]) (fun t => (t.fault, t.pc)) =
    some (some ⟨.outOfBounds, .operand, 255#9, 256#9⟩, 255#9) := by decide
theorem test_prn_L10 : after { demo 0 [0x47#8, 2#8] with out := [1#8] } (fun t => (t.out, t.pc)) =
    some ([1#8, 0#8], 2#9) := by decide
theorem test_prn_L12 : after (demo 0 [0x47#8, 8#8]) (fun t => (t.fault, t.out)) =
    some (some ⟨.outOfBounds, .register, 0#9, 8#9⟩, []) := by decide
theorem test_push_S2 : after (demo 0 [0x45#8, 7#8]) (fun t => (t.sp, t.read 0xF3#8)) = some (0xF3#8, 0xF3#8) := by decide
theorem test_push_S3 : after (demo 0 [0x45#8, 0#8] [(7, 0#8)]) (fun t => (t.fault, t.sp)) =
    some (some ⟨.outOfBounds, .spBelow0, 0#9, 0#9⟩, 0#8) := by decide
theorem test_pop_S10 : after ((demo 0 [0x46#8, 7#8] [(7, 0xF3#8)]).write 0xF3#8 0x80#8) (fun t => (t.sp, t.pc)) =
    some (0x81#8, 2#9) := by decide
theorem test_pop_S11 : after ((demo 0 [0x46#8, 7#8] [(7, 0xF3#8)]).write 0xF3#8 0xFF#8) (fun t => (t.fault, t.sp)) =
    some (some ⟨.outOfBounds, .spAbove255, 0#9, 255#9⟩, 0xF3#8) := by decide
theorem test_call_C1 : after (demo 3 [0x50#8, 1#8] [(1, 9#8)]) (fun t => (t.sp, t.read 0xF3#8, t.pc)) =
    some (0xF3#8, 4#8, 10#9) := by decide
theorem test_call_C2 : after (demo 0 [0x50#8, 7#8]) (fun t => (t.sp, t.read 0xF3#8, t.pc)) =
    some (0xF3#8, 1#8, 0xF4#9) := by decide
theorem test_ret_C6 : after ((demo 0 [0x11#8] [(7, 0xF3#8)]).write 0xF3#8 255#8) (fun t => (t.sp, t.pc)) =
    some (0xF4#8, 256#9) := by decide
theorem test_ret_C8 : after ((demo 255 [0x11#8] [(7, 0xF3#8)]).write 0xF3#8 7#8) (fun t => (t.sp, t.pc)) =
    some (0xF4#8, 8#9) := by decide
theorem test_jmp_B1 : after (demo 0 [0x54#8, 3#8] [(3, 12#8)]) (·.pc) = some 12#9 := by decide
theorem test_jmp_B2 : after (demo 20 [0x54#8, 3#8]) (·.pc) = some 0#9 := by decide
theorem test_jeq_B3 : after { demo 20 [0x55#8, 3#8] [(3, 12#8)] with fl := 1#8 } (·.pc) = some 12#9 := by decide
theorem test_jeq_B7 : after (demo 255 [0x55#8]) (fun t => (t.pc, t.run)) = some (257#9, .running) := by decide
theorem test_jne_B8 : after (demo 255 [0x56#8]) (·.fault) = some (some ⟨.outOfBounds, .operand, 255#9, 256#9⟩) := by decide
theorem test_jne_B11 : after (demo 0 [0x56#8, 7#8]) (·.pc) = some 0xF4#9 := by decide
theorem test_nop_N2 : after (demo 255 [0x00#8]) (fun t => (t.pc, t.run)) = some (256#9, .running) := by decide
theorem test_hlt_H1 : after (demo 11 [0x01#8]) (fun t => (t.pc, t.run)) = some (11#9, .halted) := by decide
theorem test_halted_H2 : nextOf (step { demo 0 [0x00#8] with run := .halted }) = none := by decide
theorem test_fetch_256 : after (demo 256 []) (fun t => (t.fault, t.pc)) =
    some (some ⟨.outOfBounds, .fetch, 256#9, 256#9⟩, 256#9) := by decide
theorem test_illegal_E2 : after (demo 0 [0x02#8]) (fun t => (t.fault, t.pc)) =
    some (some ⟨.illegalInstruction, .none, 0#9, 2#9⟩, 0#9) := by decide
theorem test_load_too_long : nextOf (loadImage (List.replicate 257 0#8)) = none := by
  rw [loadImage, List.length_replicate]
  rfl
theorem test_outputLines : { State.reset with out := [44#8, 7#8] }.outputLines = ["44", "7"] := by decide

/-! ### Witnesses: states and operands that meet each statement's hypotheses -/

theorem witness_DecodeOfEncodeIsTheInstruction : machineOpcodeMap.Distinct := machineOpcodeMap_distinct

theorem witness_DecodedBytesAreTheEncoding :
    decodeWith machineOpcodeMap [0xA0#8, 0#8, 1#8, 0xFF#8] = .ok (.add 0#8 1#8, [0xFF#8]) := by decide

theorem witness_OpcodeByteIsComparedWhole : machineOpcodeMap.Distinct := machineOpcodeMap_distinct

theorem witness_OpcodeAloneFixesTheLength :
    decodeWith machineOpcodeMap (0x45#8 :: [3#8]) = .ok (.push 3#8, []) ∧
    decodeWith machineOpcodeMap (0x45#8 :: [9#8, 1#8]) = .ok (.push 9#8, [1#8]) := by decide

theorem witness_IllegalOpcodeBytesFault :
    (demo 255 [0xFF#8]).run = .running ∧ (demo 255 [0xFF#8]).pc.toNat < 256 ∧
    memGet (demo 255 [0xFF#8]).mem (demo 255 [0xFF#8]).pc.toNat = 0xFF#8 ∧ ∀ m, machineOpcodeMap m ≠ 0xFF#8 :=
  ⟨by decide, by decide, by decide, by intro m; cases m <;> decide⟩

theorem witness_DispatchIsHaltTableOrIllegal_halt :
    machineOpcodeMap.Distinct ∧ (demo 255 [0x01#8]).run = .running ∧ (demo 255 [0x01#8]).pc.toNat < 256 ∧
    memGet (demo 255 [0x01#8]).mem (demo 255 [0x01#8]).pc.toNat = machineOpcodeMap .hlt :=
  ⟨machineOpcodeMap_distinct, by decide, by decide, by decide⟩

theorem witness_DispatchIsHaltTableOrIllegal_table :
    machineOpcodeMap.Distinct ∧ (demo 254 [0x82#8, 1#8]).run = .running ∧ (demo 254 [0x82#8, 1#8]).pc.toNat < 256 ∧
    memGet (demo 254 [0x82#8, 1#8]).mem (demo 254 [0x82#8, 1#8]).pc.toNat = machineOpcodeMap .ldi ∧
    Mnemonic.ldi ≠ .hlt ∧ (Instr.ldi 1#8 0#8).operandBytes[0]? = some 1#8 ∧
    (demo 254 [0x82#8, 1#8]).pc.toNat + 1 + 0 < 256 :=
  ⟨machineOpcodeMap_distinct, by decide, by decide, by decide, by decide, by decide, by decide⟩

theorem witness_DispatchIsHaltTableOrIllegal_illegal :
    machineOpcodeMap.Distinct ∧ (demo 0 [0x02#8]).run = .running ∧ (demo 0 [0x02#8]).pc.toNat < 256 ∧
    memGet (demo 0 [0x02#8]).mem (demo 0 [0x02#8]).pc.toNat = 0x02#8 ∧ ∀ m, 0x02#8 ≠ machineOpcodeMap m :=
  ⟨machineOpcodeMap_distinct, by decide, by decide, by decide, by intro m; cases m <;> decide⟩

theorem witness_StepRunsTheDecodedInstruction_bytes : 2 < 3 ∧ (demo 253 []).pc.toNat + 2 < 256 := by decide

theorem witness_StepRunsTheDecodedInstruction_step :
    (demo 253 [0xA0#8, 0#8, 1#8]).run = .running ∧ (demo 253 [0xA0#8, 0#8, 1#8]).pc.toNat < 256 ∧
    decode (fetchWindow (demo 253 [0xA0#8, 0#8, 1#8])) = .ok (.add 0#8 1#8, []) := by decide

theorem witness_StepRunsTheEncodedInstruction :
    machineOpcodeMap.Distinct ∧ (demo 254 [0x47#8, 3#8]).run = .running ∧
    ∀ (k : Nat) (v : Byte), (encodeWith machineOpcodeMap (.prn 3#8))[k]? = some v →
      (demo 254 [0x47#8, 3#8]).pc.toNat + k < 256 ∧
      memGet (demo 254 [0x47#8, 3#8]).mem ((demo 254 [0x47#8, 3#8]).pc.toNat + k) = v := by
  refine ⟨machineOpcodeMap_distinct, by decide, ?_⟩
  rintro (_ | _ | k) v h
  · cases h; decide
  · cases h; decide
  · cases h

theorem witness_FetchPastTheLastCellFaults :
    (demo 256 []).run = .running ∧ 256 ≤ (demo 256 []).pc.toNat ∧ (demo 257 []).run = .running ∧
    256 ≤ (demo 257 []).pc.toNat := by decide

theorem witness_EachFetchLatchesIrAndNoneReadsIt :
    (∃ t, (demo 255 [0x11#8]).pc.toNat < 256 ∧ step (demo 255 [0x11#8]) = .next t) ∧
    ∃ t, exec .ret (demo 0 []) = .next t :=
  ⟨⟨_, by decide, rfl⟩, ⟨_, rfl⟩⟩

theorem witness_HaltedIsFinal_halted : { demo 0 [] with run := .halted }.run = .halted := by decide

theorem witness_HaltedIsFinal_stopped : ∀ t, step { demo 0 [] with run := .faulted } ≠ .next t := by
  intro t h
  cases h

theorem witness_RunHaltsOnlyAtHlt :
    ∃ t, (demo 0 [0x00#8, 0x01#8]).run = .running ∧ runFor 3 (demo 0 [0x00#8, 0x01#8]) = .halted t :=
  ⟨_, by decide, rfl⟩

theorem witness_JumpToItselfNeverEnds :
    (demo 4 [0x54#8, 0#8] [(0, 4#8)]).run = .running ∧ (demo 4 [0x54#8, 0#8] [(0, 4#8)]).pc.toNat + 1 < 256 ∧
    memGet (demo 4 [0x54#8, 0#8] [(0, 4#8)]).mem (demo 4 [0x54#8, 0#8] [(0, 4#8)]).pc.toNat = machineOpcodeMap .jmp ∧
    memGet (demo 4 [0x54#8, 0#8] [(0, 4#8)]).mem ((demo 4 [0x54#8, 0#8] [(0, 4#8)]).pc.toNat + 1) = 0#8 ∧
    (0#8 : Byte).toNat = (0 : RegIndex).val ∧
    ((demo 4 [0x54#8, 0#8] [(0, 4#8)]).reg 0).toNat = (demo 4 [0x54#8, 0#8] [(0, 4#8)]).pc.toNat := by decide

theorem witness_loaded_image : ∃ s, loadImage [0x82#8, 0#8, 5#8] = .next s := ⟨_, rfl⟩

theorem witness_LoadPlacesTheImageInTheResetState :
    (List.replicate 256 1#8 : List Byte).length ≤ 256 ∧ 256 < (List.replicate 257 1#8 : List Byte).length := by
  rw [List.length_replicate, List.length_replicate]
  decide

/-- A legal running state that is not the reset state, with a step that goes on and one that faults. -/
theorem witness_StepKeepsLegalStates :
    (demo 257 [] [(7, 3#8)]).Inv ∧ (∃ t, step (demo 257 [] [(7, 3#8)]) = .next t) ∧
    (demo 9 [0x46#8, 7#8] [(7, 3#8)]).Inv ∧ ∃ t, step (demo 9 [0x46#8, 7#8] [(7, 3#8)]) = .next t :=
  ⟨⟨by decide, by decide, by decide, by decide, by intro f h; cases h⟩, ⟨_, rfl⟩,
    ⟨by decide, by decide, by decide, by decide, by intro f h; cases h⟩, ⟨_, rfl⟩⟩

theorem witness_EqualCellsMeanEqualMemories :
    Memory.wf [(3, 1#8), (255, 9#8)] ∧
    ∀ a : Nat, a < 256 → memGet [(3, 1#8), (255, 9#8)] a = memGet [(3, 1#8), (255, 9#8)] a :=
  ⟨by decide, fun _ _ => rfl⟩

theorem witness_MemWriteChangesOneCell :
    Memory.wf (demo 253 [1#8, 2#8, 3#8]).mem ∧ (254#8 : Byte) ≠ 255#8 := by decide

theorem witness_ExecFaultsAsTheCatalogueOrders_fault :
    (demo 254 []).run = .running ∧ (demo 254 []).pc.toNat < 256 ∧
    faultOf (.add 9#8 9#8) (demo 254 []) = some ⟨.outOfBounds, .operand, 254#9, 256#9⟩ := by decide

theorem witness_ExecFaultsAsTheCatalogueOrders_none :
    (demo 255 []).run = .running ∧ (demo 255 []).pc.toNat < 256 ∧ faultOf (.jeq 9#8) (demo 255 []) = none ∧
    faultOf (.ldi 7#8 255#8) (demo 253 []) = none := by decide

theorem witness_FaultsArePrecise : ∃ t, step (demo 0 [0xA0#8, 0#8, 9#8]) = .next t ∧ t.run = .faulted := ⟨_, rfl, rfl⟩

theorem witness_UnsupportedOperationIsNeverRaised :
    ∃ t f, step (demo 0 [0x02#8]) = .next t ∧ t.fault = some f ∧ (demo 0 [0x02#8]).fault ≠ some f :=
  ⟨_, _, rfl, rfl, by decide⟩

theorem witness_FaultRecordNumbers :
    (demo 0 []).fault = none ∧
    { demo 0 [] with fault := some ⟨.outOfBounds, .spAbove255, 0#9, 255#9⟩ }.fault =
      some ⟨.outOfBounds, .spAbove255, 0#9, 255#9⟩ := by decide

theorem witness_OperandBytesPastTheEndAreNeverSeen :
    (demo 254 []).pc.toNat < 256 ∧ (Instr.ldi 1#8 2#8).mnemonic = (Instr.ldi 1#8 3#8).mnemonic ∧
    ∀ k : Nat, (demo 254 []).pc.toNat + 1 + k < 256 →
      (Instr.ldi 1#8 2#8).operandBytes[k]? = (Instr.ldi 1#8 3#8).operandBytes[k]? := by
  refine ⟨by decide, rfl, fun k hk => ?_⟩
  have h254 : (demo 254 []).pc.toNat = 254 := by decide
  obtain rfl : k = 0 := by omega
  rfl

theorem witness_OnlyCmpWritesFlags :
    (∃ t, exec (.sub 0#8 1#8) (demo 0 []) = .next t ∧ (Instr.sub 0#8 1#8).mnemonic ≠ .cmp ∧
      (demo 0 []).run = .running ∧ t.run = .running) ∧
    (Instr.sub 0#8 1#8).mnemonic = .sub ∧ ¬ WritesReg (.sub 0#8 1#8) 1 :=
  ⟨⟨_, rfl, by decide, by decide, rfl⟩, rfl, by unfold WritesReg; decide⟩

theorem witness_FlagBitsSevenToOneAreZeroAndUnread :
    Reachable State.reset ∧ (∃ t, exec (.cmp 0#8 1#8) (demo 0 []) = .next t) ∧ 0xFE#8 &&& 1#8 = 0#8 :=
  ⟨.load [] State.reset rfl, ⟨_, rfl⟩, by decide⟩

theorem witness_OutIsWrittenByPrnAloneAndUnread :
    (∃ t, exec (.prn 7#8) (demo 254 []) = .next t) ∧ (7#8 : Byte).toNat = (7 : RegIndex).val ∧
    (demo 254 []).pc.toNat + 1 < 256 :=
  ⟨⟨_, rfl⟩, by decide, by decide⟩

theorem witness_OnlyPushAndCallWriteMemory :
    (∃ s, loadImage [0x82#8, 0#8, 5#8] = .next s) ∧
    (∃ t, exec (.pop 0#8) (demo 0 []) = .next t ∧ (Instr.pop 0#8).mnemonic ≠ .push ∧ (Instr.pop 0#8).mnemonic ≠ .call) ∧
    ∃ t, step (demo 0 [0x45#8, 7#8]) = .next t ∧ t.mem ≠ (demo 0 [0x45#8, 7#8]).mem :=
  ⟨⟨_, rfl⟩, ⟨_, rfl, by decide, by decide⟩, ⟨_, rfl, by decide⟩⟩

theorem witness_OtherCellsReadAsBefore :
    ∃ t, exec (.call 0#8) (demo 0 []) = .next t ∧ storeAddress (.call 0#8) (demo 0 []) ≠ some 0xF4#8 ∧
      storeAddress (.call 0#8) (demo 0 []) = some 0xF3#8 :=
  ⟨_, rfl, by decide, by decide⟩

theorem witness_RegistersWrittenAreThoseTabulated :
    ∃ t, exec (.pop 0#8) (demo 0 []) = .next t ∧ ¬ WritesReg (.pop 0#8) 1 :=
  ⟨_, rfl, by unfold WritesReg; decide⟩

theorem witness_RegistersReadAreThoseTabulated :
    (∃ t, exec (.jeq 1#8) (demo 0 []) = .next t ∧ ¬ ReadsReg (.jeq 1#8) (demo 0 []) 1 ∧ ¬ WritesReg (.jeq 1#8) 1) ∧
    ∃ t, exec (.ldi 1#8 1#8) (demo 0 []) = .next t ∧ (Instr.ldi 1#8 1#8).mnemonic ≠ .jeq ∧
      (Instr.ldi 1#8 1#8).mnemonic ≠ .jne ∧ (Instr.ldi 1#8 1#8).mnemonic ≠ .cmp :=
  ⟨⟨_, rfl, by unfold ReadsReg; decide, by unfold WritesReg; decide⟩, ⟨_, rfl, by decide, by decide, by decide⟩⟩

theorem witness_ProgramCounterFollowsTheNetTable :
    ∃ t, (demo 255 []).pc.toNat < 256 ∧ faultOf (.jeq 9#8) (demo 255 []) = none ∧
      exec (.jeq 9#8) (demo 255 []) = .next t :=
  ⟨_, by decide, by decide, rfl⟩

/-- A register byte at the top of its range, and the last `pc` at which two operand bytes have cells. -/
theorem witness_two_operands :
    (7#8 : Byte).toNat = (7 : RegIndex).val ∧ (0#8 : Byte).toNat = (0 : RegIndex).val ∧
    (demo 253 []).pc.toNat + 2 < 256 := by decide

/-- The last `pc` at which one operand byte has a cell. -/
theorem witness_one_operand : (7#8 : Byte).toNat = (7 : RegIndex).val ∧ (demo 254 []).pc.toNat + 1 < 256 := by decide

/-- PUSH and CALL at the lowest SP that has room. -/
theorem witness_push_room :
    (7#8 : Byte).toNat = (7 : RegIndex).val ∧ (demo 254 [] [(7, 1#8)]).pc.toNat + 1 < 256 ∧
    (demo 254 [] [(7, 1#8)]).sp ≠ 0#8 := by decide

theorem witness_PopLoadsFromTheStackPointer :
    ((6#8 : Byte).toNat = (6 : RegIndex).val ∧ (6 : RegIndex) ≠ 7 ∧ (demo 254 [] [(7, 254#8)]).pc.toNat + 1 < 256 ∧
      (demo 254 [] [(7, 254#8)]).sp ≠ 255#8) ∧
    (demo 254 [] [(7, 255#8)]).pc.toNat + 1 < 256 ∧
    (demo 254 [] [(7, 255#8)]).read (demo 254 [] [(7, 255#8)]).sp ≠ 255#8 := by decide

theorem witness_RetPopsAndReturns : (demo 255 [] [(7, 254#8)]).sp ≠ 255#8 := by decide

theorem witness_branch_taken_and_not_taken :
    { demo 254 [] with fl := 1#8 }.fl.getLsbD 0 = true ∧ (demo 254 []).fl.getLsbD 0 = false ∧
    (7#8 : Byte).toNat = (7 : RegIndex).val ∧ (demo 254 []).pc.toNat + 1 < 256 ∧
    { demo 254 [] with fl := 1#8 }.pc.toNat + 1 < 256 := by decide

theorem witness_PushThenPopRoundTrips :
    Memory.wf (demo 252 [] [(7, 1#8)]).mem ∧ (0#8 : Byte).toNat = (0 : RegIndex).val ∧
    (6#8 : Byte).toNat = (6 : RegIndex).val ∧ (0 : RegIndex) ≠ 7 ∧ (6 : RegIndex) ≠ 7 ∧
    1 ≤ (demo 252 [] [(7, 1#8)]).sp.toNat ∧ (demo 252 [] [(7, 1#8)]).pc.toNat + 3 < 256 ∧
    Memory.wf (demo 248 [] [(7, 2#8)]).mem ∧ 2 ≤ (demo 248 [] [(7, 2#8)]).sp.toNat ∧
    (demo 248 [] [(7, 2#8)]).pc.toNat + 7 < 256 := by decide

theorem witness_RetReturnsPastTheCall :
    Memory.wf (demo 254 []).mem ∧ (1#8 : Byte).toNat = (1 : RegIndex).val ∧ (demo 254 []).pc.toNat + 1 < 256 ∧
    (demo 254 []).sp ≠ 0#8 ∧
    ∃ t, exec (.call 1#8) (demo 254 []) = .next t ∧ { t with out := [1#8] }.sp = t.sp ∧
      { t with out := [1#8] }.read { t with out := [1#8] }.sp = t.read t.sp :=
  ⟨by decide, by decide, by decide, by decide, _, rfl, rfl, rfl⟩

theorem witness_StackPointerNeverWraps :
    (∃ t, faultOf (.push 0#8) (demo 0 [] [(7, 1#8)]) = none ∧ exec (.push 0#8) (demo 0 [] [(7, 1#8)]) = .next t) ∧
    (∃ t, faultOf .ret (demo 0 [] [(7, 254#8)]) = none ∧ exec .ret (demo 0 [] [(7, 254#8)]) = .next t) ∧
    (∃ t, faultOf (.pop 0#8) (demo 0 [] [(7, 254#8)]) = none ∧ exec (.pop 0#8) (demo 0 [] [(7, 254#8)]) = .next t) ∧
    ∃ t, faultOf (.pop 7#8) (demo 0 [] [(7, 255#8)]) = none ∧ exec (.pop 7#8) (demo 0 [] [(7, 255#8)]) = .next t :=
  ⟨⟨_, by decide, rfl⟩, ⟨_, by decide, rfl⟩, ⟨_, by decide, rfl⟩, ⟨_, by decide, rfl⟩⟩

theorem witness_PushedByteIsFetchedAtOnce :
    ∃ t, Memory.wf (demo 6 [] [(7, 9#8), (0, 1#8)]).mem ∧ (0#8 : Byte).toNat = (0 : RegIndex).val ∧ (0 : RegIndex) ≠ 7 ∧
      (demo 6 [] [(7, 9#8), (0, 1#8)]).pc.toNat + 1 < 256 ∧ (demo 6 [] [(7, 9#8), (0, 1#8)]).sp ≠ 0#8 ∧
      exec (.push 0#8) (demo 6 [] [(7, 9#8), (0, 1#8)]) = .next t ∧ 0 < 3 ∧
      t.pc.toNat + 0 = (demo 6 [] [(7, 9#8), (0, 1#8)]).sp.toNat - 1 :=
  ⟨_, by decide, by decide, by decide, by decide, by decide, rfl, by decide, by decide⟩

end Sys2Proof.Tests
end

/-! ## What a load, an instruction and a step can answer -/

namespace Sys2Proof.Machine

/-- A load that is not refused answers the reset state with another memory (R38, R190). -/
theorem loadImage_next {image : List Byte} {s : State} (h : loadImage image = .next s) :
    s = { State.reset with mem := memPlace State.reset.mem 0 image } := by
  unfold loadImage at h
  split at h <;> cases h
  rfl

/-- `t` is `s` after some fault. -/
def FaultedFrom (s t : State) : Prop :=
  ∃ (c : FaultCode) (k : FaultKind) (v : Word9), t = s.takeFault c k v

section Checks
variable {s t : State}

theorem FaultedFrom.of_next {c : FaultCode} {k : FaultKind} {v : Word9} {r : Res}
    (e : r = .next (s.takeFault c k v)) (h : r = .next t) : FaultedFrom s t := by
  cases e.symm.trans h
  exact ⟨c, k, v, rfl⟩

theorem withOperand_next {k : Nat} {go : Res} (h : withOperand k s go = .next t) :
    FaultedFrom s t ∨ (s.pc.toNat + k < 256 ∧ go = .next t) :=
  (withOperand_cases k s go).elim (fun ⟨hpc, e⟩ => .inr ⟨hpc, e ▸ h⟩) fun ⟨_, e⟩ => .inl (.of_next e h)

theorem withReg_next {r : Byte} {go : RegIndex → Res} (h : withReg r s go = .next t) :
    FaultedFrom s t ∨ ∃ d : RegIndex, r.toNat = d.val ∧ go d = .next t :=
  (withReg_cases r s go).elim (fun ⟨d, hr, e⟩ => .inr ⟨d, hr, e ▸ h⟩) fun ⟨_, e⟩ => .inl (.of_next e h)

theorem withPush_next {go : State → Res} (h : withPush s go = .next t) :
    FaultedFrom s t ∨ (s.sp ≠ 0#8 ∧ go (s.setSp (pushAddress s)) = .next t) :=
  (withPush_cases s go).elim (fun ⟨hsp, e⟩ => .inr ⟨hsp, e ▸ h⟩) fun ⟨_, e⟩ => .inl (.of_next e h)

theorem withPop_next {sp : Byte} {go : Res} (h : withPop sp s go = .next t) :
    FaultedFrom s t ∨ (sp ≠ 255#8 ∧ go = .next t) :=
  (withPop_cases sp s go).elim (fun ⟨hsp, e⟩ => .inr ⟨hsp, e ▸ h⟩) fun ⟨_, e⟩ => .inl (.of_next e h)

theorem aluInstr_next {op : AluOp} {ra rb : Byte} (h : aluInstr op ra rb s = .next t) :
    FaultedFrom s t ∨ ∃ a b : RegIndex, ra.toNat = a.val ∧ rb.toNat = b.val ∧ s.pc.toNat + 2 < 256 ∧
      (aluApply op a b s).setPc (s.pc + 3#9) = t := by
  rcases aluInstr_cases op ra rb s with ⟨_, _, _, e⟩ | ⟨_, _, _, _, e⟩ | ⟨a, b, ha, hb, hpc, e⟩
  · exact .inl (.of_next e h)
  · exact .inl (.of_next e h)
  · cases e.symm.trans h
    exact .inr ⟨a, b, ha, hb, hpc, rfl⟩

theorem jump_next {r : Byte} (h : jump r s = .next t) :
    FaultedFrom s t ∨ ∃ d : RegIndex, r.toNat = d.val ∧ s.pc.toNat + 1 < 256 ∧ s.setPc (toPc (s.reg d)) = t := by
  rcases jump_cases r s with ⟨_, e⟩ | ⟨_, _, e⟩ | ⟨d, hr, hpc, e⟩
  · exact .inl (.of_next e h)
  · exact .inl (.of_next e h)
  · cases e.symm.trans h
    exact .inr ⟨d, hr, hpc, rfl⟩

end Checks

/-- The instruction completes at `s` with next state `t`: one constructor for each way an instruction ends without a
fault, with the conditions under which it does. -/
inductive Completes (s : State) : Instr → State → Prop
  | ldi {r : Byte} {d : RegIndex} (imm : Byte) (hr : r.toNat = d.val) (hpc : s.pc.toNat + 2 < 256) :
      Completes s (.ldi r imm) ((s.setReg d imm).setPc (s.pc + 3#9))
  | prn {r : Byte} {d : RegIndex} (hr : r.toNat = d.val) (hpc : s.pc.toNat + 1 < 256) :
      Completes s (.prn r) ((s.emit (s.reg d)).setPc (s.pc + 2#9))
  | add {ra rb : Byte} {a b : RegIndex} (ha : ra.toNat = a.val) (hb : rb.toNat = b.val) (hpc : s.pc.toNat + 2 < 256) :
      Completes s (.add ra rb) ((aluApply .add a b s).setPc (s.pc + 3#9))
  | sub {ra rb : Byte} {a b : RegIndex} (ha : ra.toNat = a.val) (hb : rb.toNat = b.val) (hpc : s.pc.toNat + 2 < 256) :
      Completes s (.sub ra rb) ((aluApply .sub a b s).setPc (s.pc + 3#9))
  | mul {ra rb : Byte} {a b : RegIndex} (ha : ra.toNat = a.val) (hb : rb.toNat = b.val) (hpc : s.pc.toNat + 2 < 256) :
      Completes s (.mul ra rb) ((aluApply .mul a b s).setPc (s.pc + 3#9))
  | cmp {ra rb : Byte} {a b : RegIndex} (ha : ra.toNat = a.val) (hb : rb.toNat = b.val) (hpc : s.pc.toNat + 2 < 256) :
      Completes s (.cmp ra rb) ((aluApply .cmp a b s).setPc (s.pc + 3#9))
  | push {r : Byte} {d : RegIndex} (hr : r.toNat = d.val) (hpc : s.pc.toNat + 1 < 256) (hsp : s.sp ≠ 0#8) :
      Completes s (.push r)
        (((s.setSp (pushAddress s)).write (pushAddress s) ((s.setSp (pushAddress s)).reg d)).setPc (s.pc + 2#9))
  | pop {r : Byte} {d : RegIndex} (hr : r.toNat = d.val) (hpc : s.pc.toNat + 1 < 256)
      (hsp : (s.setReg d (s.read s.sp)).sp ≠ 255#8) :
      Completes s (.pop r)
        (((s.setReg d (s.read s.sp)).setSp ((s.setReg d (s.read s.sp)).sp + 1#8)).setPc (s.pc + 2#9))
  | call {r : Byte} {d : RegIndex} (hr : r.toNat = d.val) (hpc : s.pc.toNat + 1 < 256) (hsp : s.sp ≠ 0#8) :
      Completes s (.call r)
        (((s.setSp (pushAddress s)).write (pushAddress s) (returnByte s)).setPc
          (callEntry ((s.setSp (pushAddress s)).reg d)))
  | ret (hsp : s.sp ≠ 255#8) :
      Completes s .ret ((s.setSp (s.sp + 1#8)).setPc (returnTarget (s.read s.sp)))
  | jmp {r : Byte} {d : RegIndex} (hr : r.toNat = d.val) (hpc : s.pc.toNat + 1 < 256) :
      Completes s (.jmp r) (s.setPc (toPc (s.reg d)))
  | jeq_taken {r : Byte} {d : RegIndex} (hE : s.flagE = true) (hr : r.toNat = d.val) (hpc : s.pc.toNat + 1 < 256) :
      Completes s (.jeq r) (s.setPc (toPc (s.reg d)))
  | jeq_not_taken (r : Byte) (hE : s.flagE = false) : Completes s (.jeq r) (s.setPc (s.pc + 2#9))
  | jne_taken {r : Byte} {d : RegIndex} (hE : s.flagE = false) (hr : r.toNat = d.val) (hpc : s.pc.toNat + 1 < 256) :
      Completes s (.jne r) (s.setPc (toPc (s.reg d)))
  | jne_not_taken (r : Byte) (hE : s.flagE = true) : Completes s (.jne r) (s.setPc (s.pc + 2#9))
  | nop : Completes s .nop (s.setPc (s.pc + 1#9))
  | hlt : Completes s .hlt s.halt

/-- Everything an instruction can answer: a fault of its state, or its completion. -/
theorem exec_next {i : Instr} {s t : State} (h : exec i s = .next t) : FaultedFrom s t ∨ Completes s i t := by
  cases i with
  | ldi r imm =>
    exact (withOperand_next h).elim .inl fun ⟨_, h⟩ => (withOperand_next h).elim .inl fun ⟨hpc, h⟩ =>
      (withReg_next h).elim .inl fun ⟨d, hr, h⟩ => by cases h; exact .inr (.ldi imm hr hpc)
  | prn r =>
    exact (withOperand_next h).elim .inl fun ⟨hpc, h⟩ => (withReg_next h).elim .inl fun ⟨d, hr, h⟩ => by
      cases h; exact .inr (.prn hr hpc)
  | add ra rb => exact (aluInstr_next h).imp_right fun ⟨a, b, ha, hb, hpc, e⟩ => e ▸ .add ha hb hpc
  | sub ra rb => exact (aluInstr_next h).imp_right fun ⟨a, b, ha, hb, hpc, e⟩ => e ▸ .sub ha hb hpc
  | mul ra rb => exact (aluInstr_next h).imp_right fun ⟨a, b, ha, hb, hpc, e⟩ => e ▸ .mul ha hb hpc
  | cmp ra rb => exact (aluInstr_next h).imp_right fun ⟨a, b, ha, hb, hpc, e⟩ => e ▸ .cmp ha hb hpc
  | push r =>
    exact (withOperand_next h).elim .inl fun ⟨hpc, h⟩ => (withReg_next h).elim .inl fun ⟨d, hr, h⟩ =>
      (withPush_next h).elim .inl fun ⟨hsp, h⟩ => by cases h; exact .inr (.push hr hpc hsp)
  | pop r =>
    exact (withOperand_next h).elim .inl fun ⟨hpc, h⟩ => (withReg_next h).elim .inl fun ⟨d, hr, h⟩ =>
      (withPop_next h).elim .inl fun ⟨hsp, h⟩ => by cases h; exact .inr (.pop hr hpc hsp)
  | call r =>
    exact (withOperand_next h).elim .inl fun ⟨hpc, h⟩ => (withReg_next h).elim .inl fun ⟨d, hr, h⟩ =>
      (withPush_next h).elim .inl fun ⟨hsp, h⟩ => by cases h; exact .inr (.call hr hpc hsp)
  | ret => exact (withPop_next h).elim .inl fun ⟨hsp, h⟩ => by cases h; exact .inr (.ret hsp)
  | jmp r => exact (jump_next h).imp_right fun ⟨d, hr, hpc, e⟩ => e ▸ .jmp hr hpc
  | jeq r =>
    change branch s.flagE r s = .next t at h
    cases hE : s.flagE <;> rw [hE] at h
    · cases h; exact .inr (.jeq_not_taken r hE)
    · exact (jump_next h).imp_right fun ⟨d, hr, hpc, e⟩ => e ▸ .jeq_taken hE hr hpc
  | jne r =>
    change branch (!s.flagE) r s = .next t at h
    cases hE : s.flagE <;> rw [hE] at h
    · exact (jump_next h).imp_right fun ⟨d, hr, hpc, e⟩ => e ▸ .jne_taken hE hr hpc
    · cases h; exact .inr (.jne_not_taken r hE)
  | nop => cases h; exact .inr .nop
  | hlt => cases h; exact .inr .hlt

theorem aluInstr_of_lt (op : AluOp) {s : State} {ra rb : Byte} {a b : RegIndex} (ha : ra.toNat = a.val)
    (hb : rb.toNat = b.val) (hpc : s.pc.toNat + 2 < 256) :
    aluInstr op ra rb s = .next ((aluApply op a b s).setPc (s.pc + 3#9)) := by
  rw [aluInstr, withOperand_of_lt (by omega), withOperand_of_lt hpc, withReg_of_eq a ha, withReg_of_eq b hb]

theorem jump_of_lt {s : State} {r : Byte} {d : RegIndex} (hr : r.toNat = d.val) (hpc : s.pc.toNat + 1 < 256) :
    jump r s = .next (s.setPc (toPc (s.reg d))) := by
  rw [jump, withOperand_of_lt hpc, withReg_of_eq d hr]

/-- `Completes` says what `exec` answers. -/
theorem Completes.exec_eq {i : Instr} {s t : State} (h : Completes s i t) : exec i s = .next t := by
  cases h with
  | ldi imm hr hpc =>
    rw [exec, execLdi, withOperand_of_lt (by omega), withOperand_of_lt hpc, withReg_of_eq _ hr]
  | prn hr hpc => rw [exec, execPrn, withOperand_of_lt hpc, withReg_of_eq _ hr]
  | add ha hb hpc => exact aluInstr_of_lt .add ha hb hpc
  | sub ha hb hpc => exact aluInstr_of_lt .sub ha hb hpc
  | mul ha hb hpc => exact aluInstr_of_lt .mul ha hb hpc
  | cmp ha hb hpc => exact aluInstr_of_lt .cmp ha hb hpc
  | push hr hpc hsp => rw [exec, execPush, withOperand_of_lt hpc, withReg_of_eq _ hr, withPush_of_ne hsp]
  | pop hr hpc hsp => rw [exec, execPop, withOperand_of_lt hpc, withReg_of_eq _ hr]; exact withPop_of_ne hsp
  | call hr hpc hsp => rw [exec, execCall, withOperand_of_lt hpc, withReg_of_eq _ hr, withPush_of_ne hsp]
  | ret hsp => exact withPop_of_ne hsp
  | jmp hr hpc => exact jump_of_lt hr hpc
  | jeq_taken hE hr hpc => rw [exec, execJeq, hE, branch_taken, jump_of_lt hr hpc]
  | jeq_not_taken r hE => rw [exec, execJeq, hE, branch_not_taken]
  | jne_taken hE hr hpc => rw [exec, execJne, hE, Bool.not_false, branch_taken, jump_of_lt hr hpc]
  | jne_not_taken r hE => rw [exec, execJne, hE, Bool.not_true, branch_not_taken]
  | nop => rfl
  | hlt => rfl

/-- Everything a step can answer: the FETCH fault, the fault of an illegal opcode, or what the decoded instruction
answers; the last two after IR has latched the byte at `pc` (R81, R83). -/
theorem engineStep_next {map : OpcodeMap} {s t : State} (h : engineStep map s = .next t) :
    s.run = .running ∧
    ((256 ≤ s.pc.toNat ∧ t = s.takeFault .outOfBounds .fetch s.pc) ∨
      (s.pc.toNat < 256 ∧
        ((∃ e, decodeWith map (fetchWindow s) = .error e ∧
            t = (s.latchIr (fetchByte s 0)).takeFault .illegalInstruction .none ((fetchByte s 0).setWidth 9)) ∨
          ∃ i rest, decodeWith map (fetchWindow s) = .ok (i, rest) ∧
            exec i (s.latchIr (fetchByte s 0)) = .next t))) := by
  unfold engineStep at h
  split at h
  next hrun =>
    refine ⟨hrun, ?_⟩
    unfold runningStep at h
    split at h
    next hpc =>
      refine .inr ⟨hpc, ?_⟩
      dsimp only at h
      split at h
      next i rest hdec => exact .inr ⟨i, rest, hdec, h⟩
      next e hdec => cases h; exact .inl ⟨e, hdec, rfl⟩
    next hpc => cases h; exact .inl ⟨Nat.not_lt.mp hpc, rfl⟩
  next => cases h
  next => cases h

/-! ## What an instruction leaves unchanged -/

/-- Only CMP writes FL (R29). -/
theorem exec_fl_of_ne_cmp {i : Instr} {s t : State} (h : exec i s = .next t) (hi : i.mnemonic ≠ .cmp) : t.fl = s.fl := by
  rcases exec_next h with ⟨c, k, v, rfl⟩ | hc
  · rfl
  · cases hc with
    | cmp => exact absurd rfl hi
    | _ => rfl

/-- No instruction writes FL bits 7 to 1: CMP, the one writer of FL, keeps them (R28). -/
theorem exec_fl_high {i : Instr} {s t : State} (h : exec i s = .next t) : t.fl &&& 0xFE#8 = s.fl &&& 0xFE#8 := by
  rcases exec_next h with ⟨c, k, v, rfl⟩ | hc
  · rfl
  · cases hc with
    | cmp => exact s.setFlagE_high _
    | _ => rfl

/-- A step writes none of FL bits 7 to 1 either: its fetch and its own faults leave FL alone. -/
theorem step_fl_high {s t : State} (h : step s = .next t) : t.fl &&& 0xFE#8 = s.fl &&& 0xFE#8 := by
  obtain ⟨-, ⟨-, rfl⟩ | ⟨-, ⟨e, -, rfl⟩ | ⟨i, rest, -, hx⟩⟩⟩ := engineStep_next h
  · rfl
  · rfl
  · rw [exec_fl_high hx, State.latchIr_fl]

/-- OUT stays, or PRN appends its register's value (R34). -/
theorem exec_out {i : Instr} {s t : State} (h : exec i s = .next t) :
    t.out = s.out ∨ ∃ (r : Byte) (d : RegIndex), i = .prn r ∧ r.toNat = d.val ∧ t.out = s.out ++ [s.reg d] := by
  rcases exec_next h with ⟨c, k, v, rfl⟩ | hc
  · exact .inl rfl
  · cases hc with
    | prn hr _ => exact .inr ⟨_, _, rfl, hr, rfl⟩
    | _ => exact .inl rfl

/-- ADD, SUB and MUL, when they complete, are the ALU's operation on the registers they name, with `pc` past them. -/
theorem exec_arith_next {i : Instr} {s t : State} (h : exec i s = .next t) (ht : t.run = .running)
    (hi : i.mnemonic = .add ∨ i.mnemonic = .sub ∨ i.mnemonic = .mul) :
    ∃ (op : AluOp) (a b : RegIndex), op ≠ .cmp ∧ WritesReg i a ∧ t = (aluApply op a b s).setPc (s.pc + 3#9) := by
  rcases exec_next h with ⟨c, k, v, rfl⟩ | hc
  · cases ht
  · cases hc with
    | add ha => exact ⟨.add, _, _, by decide, ha, rfl⟩
    | sub ha => exact ⟨.sub, _, _, by decide, ha, rfl⟩
    | mul ha => exact ⟨.mul, _, _, by decide, ha, rfl⟩
    | _ => simp [Instr.mnemonic] at hi

/-! ## What no instruction reads

An update of the state that leaves all that instructions read, and that commutes with all that instructions do, cannot
be told by any instruction: it commutes with `exec`. -/

/-- `f` leaves the registers, `pc`, memory and E as they are, and commutes with every named operation of an instruction. -/
structure Unseen (f : State → State) : Prop where
  regs : ∀ s, (f s).regs = s.regs
  pc : ∀ s, (f s).pc = s.pc
  mem : ∀ s, (f s).mem = s.mem
  flagE : ∀ s, (f s).flagE = s.flagE
  setReg : ∀ s d v, f (s.setReg d v) = (f s).setReg d v
  write : ∀ s a v, f (s.write a v) = (f s).write a v
  setPc : ∀ s t, f (s.setPc t) = (f s).setPc t
  emit : ∀ s v, f (s.emit v) = (f s).emit v
  setFlagE : ∀ s b, f (s.setFlagE b) = (f s).setFlagE b
  halt : ∀ s, f s.halt = (f s).halt
  takeFault : ∀ s c k v, f (s.takeFault c k v) = (f s).takeFault c k v

/-- An answer with its next state, if it is one, put through `f`. -/
def mapNext (f : State → State) : Res → Res
  | .next t => .next (f t)
  | .fault r => .fault r
  | .refused r => .refused r

@[simp] theorem mapNext_next (f : State → State) (t : State) : mapNext f (.next t) = .next (f t) := rfl

theorem mapNext_eq_next {f : State → State} {r : Res} {t : State} (h : mapNext f r = .next t) :
    ∃ u, r = .next u ∧ t = f u := by
  cases r with
  | next u => cases h; exact ⟨u, rfl, rfl⟩
  | fault | refused => cases h

namespace Unseen
variable {f : State → State} (hf : Unseen f) (s : State)
include hf

theorem reg (d : RegIndex) : (f s).reg d = s.reg d := by rw [State.reg, hf.regs, State.reg]
theorem sp : (f s).sp = s.sp := hf.reg s _
theorem read (a : Byte) : (f s).read a = s.read a := by rw [State.read, hf.mem, State.read]
theorem setSp (v : Byte) : f (s.setSp v) = (f s).setSp v := hf.setReg s _ v
theorem pushAddress : Machine.pushAddress (f s) = Machine.pushAddress s := by
  rw [Machine.pushAddress, hf.sp, Machine.pushAddress]
theorem returnByte : Machine.returnByte (f s) = Machine.returnByte s := by
  rw [Machine.returnByte, hf.pc, Machine.returnByte]

theorem aluApply (op : AluOp) (a b : RegIndex) : f (Machine.aluApply op a b s) = Machine.aluApply op a b (f s) := by
  cases op <;> simp only [Machine.aluApply, hf.setReg, hf.setFlagE, hf.reg]

variable {s}

theorem withOperand {k : Nat} {go go' : Res} (h : go' = mapNext f go) :
    Machine.withOperand k (f s) go' = mapNext f (Machine.withOperand k s go) := by
  unfold Machine.withOperand
  rw [hf.pc]
  split
  · exact h
  · simp only [raise_eq, mapNext_next, hf.takeFault]

theorem withReg {r : Byte} {go go' : RegIndex → Res} (h : ∀ d, go' d = mapNext f (go d)) :
    Machine.withReg r (f s) go' = mapNext f (Machine.withReg r s go) := by
  unfold Machine.withReg
  split
  · exact h _
  · simp only [raise_eq, mapNext_next, hf.takeFault]

theorem withPush {go go' : State → Res} (h : ∀ t, go' (f t) = mapNext f (go t)) :
    Machine.withPush (f s) go' = mapNext f (Machine.withPush s go) := by
  unfold Machine.withPush
  rw [hf.sp, hf.pushAddress, ← hf.setSp]
  split
  · simp only [raise_eq, mapNext_next, hf.takeFault]
  · exact h _

theorem withPop {sp : Byte} {go go' : Res} (h : go' = mapNext f go) :
    Machine.withPop sp (f s) go' = mapNext f (Machine.withPop sp s go) := by
  unfold Machine.withPop
  split
  · simp only [raise_eq, mapNext_next, hf.takeFault]
  · exact h

theorem aluInstr (op : AluOp) (ra rb : Byte) :
    Machine.aluInstr op ra rb (f s) = mapNext f (Machine.aluInstr op ra rb s) :=
  hf.withOperand <| hf.withOperand <| hf.withReg fun a => hf.withReg fun b => by
    simp only [mapNext_next, hf.setPc, hf.aluApply, hf.pc]

theorem jump (r : Byte) : Machine.jump r (f s) = mapNext f (Machine.jump r s) :=
  hf.withOperand <| hf.withReg fun d => by simp only [mapNext_next, hf.setPc, hf.reg]

theorem branch (taken : Bool) (r : Byte) : Machine.branch taken r (f s) = mapNext f (Machine.branch taken r s) := by
  cases taken with
  | true => exact hf.jump r
  | false => simp only [branch_not_taken, mapNext_next, hf.setPc, hf.pc]

/-- An instruction does not see the update: it acts the same and leaves it in place. -/
theorem exec (i : Instr) (s : State) : Machine.exec i (f s) = mapNext f (Machine.exec i s) := by
  cases i with
  | ldi r imm =>
    exact hf.withOperand <| hf.withOperand <| hf.withReg fun d => by
      simp only [mapNext_next, hf.setPc, hf.setReg, hf.pc]
  | prn r =>
    exact hf.withOperand <| hf.withReg fun d => by simp only [mapNext_next, hf.setPc, hf.emit, hf.pc, hf.reg]
  | add ra rb => exact hf.aluInstr .add ra rb
  | sub ra rb => exact hf.aluInstr .sub ra rb
  | mul ra rb => exact hf.aluInstr .mul ra rb
  | cmp ra rb => exact hf.aluInstr .cmp ra rb
  | push r =>
    exact hf.withOperand <| hf.withReg fun d => hf.withPush fun t => by
      simp only [mapNext_next, hf.setPc, hf.write, hf.pc, hf.reg, hf.pushAddress]
  | pop r =>
    exact hf.withOperand <| hf.withReg fun d => by
      simp only [hf.sp, hf.read, ← hf.setReg]
      exact hf.withPop (by simp only [mapNext_next, hf.setPc, hf.setSp, hf.pc])
  | call r =>
    exact hf.withOperand <| hf.withReg fun d => hf.withPush fun t => by
      simp only [mapNext_next, hf.setPc, hf.write, hf.reg, hf.pushAddress, hf.returnByte]
  | ret =>
    simp only [Machine.exec, execRet, hf.sp]
    exact hf.withPop (by simp only [mapNext_next, hf.setPc, hf.setSp, hf.read])
  | jmp r => exact hf.jump r
  | jeq r => simp only [Machine.exec, execJeq, hf.flagE, hf.branch]
  | jne r => simp only [Machine.exec, execJne, hf.flagE, hf.branch]
  | nop => simp only [Machine.exec, execNop, mapNext_next, hf.setPc, hf.pc]
  | hlt => simp only [Machine.exec, execHlt, mapNext_next, hf.halt]

theorem exec_of_next {i : Instr} {t : State} (h : Machine.exec i s = .next t) : Machine.exec i (f s) = .next (f t) := by
  rw [hf.exec, h, mapNext_next]

end Unseen

/-- FL with the bits of `h` inverted. -/
def invertFl (h : Byte) (s : State) : State := { s with fl := s.fl ^^^ h }

theorem getLsbD_zero_of_and_one {h : Byte} (hh : h &&& 1#8 = 0#8) : h.getLsbD 0 = false := by
  simpa using congrArg (BitVec.getLsbD · 0) hh

/-- A write of E sets bit 0 and keeps every other bit (R28, R119). -/
theorem State.setFlagE_getLsbD (s : State) (b : Bool) {i : Nat} (hi : i < 8) :
    (s.setFlagE b).fl.getLsbD i = if i = 0 then b else s.fl.getLsbD i := by
  rw [State.setFlagE_fl, BitVec.getLsbD_or, BitVec.getLsbD_and]
  interval_cases i <;> cases b <;> simp

/-- Inverting bits of FL other than E is unseen (R28). -/
theorem invertFl_unseen {h : Byte} (hh : h &&& 1#8 = 0#8) : Unseen (invertFl h) where
  regs _ := rfl
  pc _ := rfl
  mem _ := rfl
  flagE s := by
    simp only [State.flagE, invertFl, BitVec.getLsbD_xor, getLsbD_zero_of_and_one hh, Bool.xor_false]
  setReg _ _ _ := rfl
  write _ _ _ := rfl
  setPc _ _ := rfl
  emit _ _ := rfl
  setFlagE s b := by
    have hfl : ((invertFl h s).setFlagE b).fl = (s.setFlagE b).fl ^^^ h := by
      refine BitVec.eq_of_getLsbD_eq fun i hi => ?_
      rw [BitVec.getLsbD_xor, State.setFlagE_getLsbD _ _ hi, State.setFlagE_getLsbD _ _ hi, invertFl, BitVec.getLsbD_xor]
      by_cases h0 : i = 0
      · rw [if_pos h0, if_pos h0, h0, getLsbD_zero_of_and_one hh, Bool.xor_false]
      · rw [if_neg h0, if_neg h0]
    exact congrArg (fun fl => { s with fl }) hfl.symm
  halt _ := rfl
  takeFault _ _ _ _ := rfl

/-- OUT with bytes put before its oldest. -/
def prependOut (o : List Byte) (s : State) : State := { s with out := o ++ s.out }

/-- Bytes before the oldest in OUT are unseen (R34). -/
theorem prependOut_unseen (o : List Byte) : Unseen (prependOut o) where
  regs _ := rfl
  pc _ := rfl
  mem _ := rfl
  flagE _ := rfl
  setReg _ _ _ := rfl
  write _ _ _ := rfl
  setPc _ _ := rfl
  emit s v := by simp only [prependOut, State.emit, List.append_assoc]
  setFlagE _ _ := rfl
  halt _ := rfl
  takeFault _ _ _ _ := rfl

/-- A state is the one with empty OUT and its own bytes put there. -/
theorem prependOut_empty (o : List Byte) (s : State) : prependOut o { s with out := [] } = { s with out := o } := by
  simp only [prependOut, List.append_nil]

/-- An instruction adds the same bytes whatever OUT holds: those it emits into an empty OUT (R34). -/
theorem exec_out_append {i : Instr} {s t : State} (h : exec i s = .next t) :
    ∃ u, exec i { s with out := [] } = .next u ∧ t.out = s.out ++ u.out ∧
      ∀ o : List Byte, exec i { s with out := o } = .next { t with out := o ++ u.out } := by
  obtain ⟨u, hu, rfl⟩ : ∃ u, exec i { s with out := [] } = .next u ∧ t = prependOut s.out u :=
    mapNext_eq_next <| by rw [← (prependOut_unseen s.out).exec, prependOut_empty, h]
  refine ⟨u, hu, rfl, fun o => ?_⟩
  rw [← prependOut_empty, (prependOut_unseen o).exec_of_next hu]
  rfl

/-! ## The obligations -/

/-- Settles O29, from what an instruction can answer. -/
theorem onlyCmpWritesFlags : Obligations.OnlyCmpWritesFlags := by
  refine ⟨fun _ _ _ => exec_fl_of_ne_cmp, fun i s t h _ ht hi => ?_, fun ra rb a b s ha hb hpc => ?_⟩
  · obtain ⟨op, a, b, hop, ha, rfl⟩ := exec_arith_next h ht hi
    obtain ⟨-, hmem, hout, hrun, hfault, hir, hreg, hfl, -⟩ := aluApply_frame op a b s
    refine ⟨by simp [State.setPc, hmem, hout, hrun, hfault, hir, hfl hop], fun d hd => ?_⟩
    exact hreg d fun e => hd (e ▸ ha)
  · refine ⟨_, (Completes.cmp ha hb hpc).exec_eq, ?_⟩
    simp [aluApply, equalFlag, beq_eq_decide]

/-- Settles O30, by induction over the states of runs and because inverting bits 7 to 1 is unseen. -/
theorem flagBitsSevenToOneAreZeroAndUnread : Obligations.FlagBitsSevenToOneAreZeroAndUnread := by
  refine ⟨fun s hs => ?_, fun _ _ _ => exec_fl_high, fun _ _ _ _ hh => (invertFl_unseen hh).exec_of_next⟩
  induction hs with
  | load image s h => simp [loadImage_next h, State.reset]
  | step s t _ h ih => rw [step_fl_high h, ih]

/-- Settles O31, because what stands in OUT before an instruction's own byte is unseen. -/
theorem outIsWrittenByPrnAloneAndUnread : Obligations.OutIsWrittenByPrnAloneAndUnread := by
  refine ⟨fun image s h => by rw [loadImage_next h]; rfl, fun i s t h => ?_, fun r d s hr hpc => ?_⟩
  · obtain ⟨u, hu, hout, hany⟩ := exec_out_append h
    refine ⟨u.out, hout, fun hne => ?_, hany⟩
    obtain hsame | ⟨r, d, hi, hr, hnew⟩ := exec_out hu
    · exact absurd hsame hne
    · exact ⟨r, d, hi, hr, hnew⟩
  · exact ⟨_, (Completes.prn hr hpc).exec_eq, rfl⟩

/-- Settles O17: a load takes its registers from the reset state. -/
theorem registersAtReset : Obligations.RegistersAtReset :=
  ⟨rfl, fun image s h => by rw [loadImage_next h]⟩

end Sys2Proof.Machine

/-! ## What writes memory (R56) -/

namespace Sys2Proof

theorem takeOne_ok {m : Mnemonic} {mk : Byte → Instr} {bytes rest : List Byte} {i : Instr}
    (h : takeOne m mk bytes = .ok (i, rest)) : ∃ b, i = mk b ∧ bytes = b :: rest := by
  cases bytes with
  | nil => cases h
  | cons b bs => cases h; exact ⟨b, rfl, rfl⟩

theorem takeTwo_ok {m : Mnemonic} {mk : Byte → Byte → Instr} {bytes rest : List Byte} {i : Instr}
    (h : takeTwo m mk bytes = .ok (i, rest)) : ∃ b c, i = mk b c ∧ bytes = b :: c :: rest := by
  match bytes, h with
  | b :: c :: _, h => cases h; exact ⟨b, c, rfl, rfl⟩

/-- An instruction read as mnemonic `m` is one of `m`, and the bytes read are its operand bytes (R61). -/
theorem decodeOperands_ok {m : Mnemonic} {bytes rest : List Byte} {i : Instr}
    (h : decodeOperands m bytes = .ok (i, rest)) : i.mnemonic = m ∧ bytes = i.operandBytes ++ rest := by
  cases m with
  | ldi | add | sub | mul | cmp => obtain ⟨b, c, rfl, rfl⟩ := takeTwo_ok h; exact ⟨rfl, rfl⟩
  | prn | push | pop | call | jmp | jeq | jne => obtain ⟨b, rfl, rfl⟩ := takeOne_ok h; exact ⟨rfl, rfl⟩
  | ret | nop | hlt => cases h; exact ⟨rfl, rfl⟩

/-- Bytes that decode begin with the encoding of the instruction they decode to (R60, R63). -/
theorem decodeWith_ok {map : OpcodeMap} {bytes rest : List Byte} {i : Instr}
    (h : decodeWith map bytes = .ok (i, rest)) : bytes = encodeWith map i ++ rest := by
  cases bytes with
  | nil => cases h
  | cons b bs =>
    unfold decodeWith at h
    dsimp only at h
    split at h
    next => cases h
    next m hm =>
      obtain ⟨hmn, hbs⟩ := decodeOperands_ok h
      rw [encodeWith, hmn, decodeOpcode_sound hm, hbs, List.cons_append]

end Sys2Proof

namespace Sys2Proof.Machine

theorem fetchByte_zero {s : State} (hpc : s.pc.toNat < 256) : fetchByte s 0 = memGet s.mem s.pc.toNat := if_pos hpc

/-- The instruction a step dispatches has its opcode in the cell at `pc` (R81, R83). -/
theorem memGet_pc_of_decode {map : OpcodeMap} {s : State} {i : Instr} {rest : List Byte} (hpc : s.pc.toNat < 256)
    (h : decodeWith map (fetchWindow s) = .ok (i, rest)) : memGet s.mem s.pc.toNat = map i.mnemonic := by
  rw [← fetchByte_zero hpc]
  exact (List.cons.inj (decodeWith_ok h)).1

/-- After a load a cell holds the image's byte, and 0 past the image's end (R31, R190). -/
theorem loadImage_memGet {image : List Byte} {s : State} (h : loadImage image = .next s) {a : Nat} (ha : a < 256) :
    memGet s.mem a = image.getD a 0#8 := by
  rw [loadImage_next h, memGet_memPlace _ _ _ _ State.reset_mem_wf]
  by_cases hlt : a < image.length
  · simp [ha, hlt]
  · simp [hlt, State.reset, memGet]

/-- No instruction but PUSH and CALL writes memory; a fault writes none either (R56, R172). -/
theorem exec_mem_of_ne {i : Instr} {s t : State} (h : exec i s = .next t) (hpush : i.mnemonic ≠ .push)
    (hcall : i.mnemonic ≠ .call) : t.mem = s.mem := by
  rcases exec_next h with ⟨c, k, v, rfl⟩ | hc
  · rfl
  · cases hc with
    | push => exact absurd rfl hpush
    | call => exact absurd rfl hcall
    | _ => rfl

/-- A step that changes memory dispatches PUSH or CALL: the fetch and the step's own faults write none. -/
theorem engineStep_mem_ne {map : OpcodeMap} {s t : State} (h : engineStep map s = .next t) (hmem : t.mem ≠ s.mem) :
    memGet s.mem s.pc.toNat = map .push ∨ memGet s.mem s.pc.toNat = map .call := by
  obtain ⟨-, ⟨-, rfl⟩ | ⟨hpc, ⟨e, -, rfl⟩ | ⟨i, rest, hdec, hx⟩⟩⟩ := engineStep_next h
  · exact absurd rfl hmem
  · exact absurd rfl hmem
  · rw [memGet_pc_of_decode hpc hdec]
    by_cases hpush : i.mnemonic = .push
    · exact .inl (by rw [hpush])
    · by_cases hcall : i.mnemonic = .call
      · exact .inr (by rw [hcall])
      · exact absurd (exec_mem_of_ne hx hpush hcall) hmem

/-- Settles O32, from what a load places, what an instruction can answer, and what a step dispatches. -/
theorem onlyPushAndCallWriteMemory : Obligations.OnlyPushAndCallWriteMemory :=
  ⟨fun _ _ h _ => loadImage_memGet h, fun _ _ _ => exec_mem_of_ne, fun _ _ => engineStep_mem_ne⟩

end Sys2Proof.Machine

/-! ## The opcode byte, legal and illegal (R63, R69) -/

namespace Sys2Proof

/-- Under an injective map the multiplexer answers the one mnemonic whose opcode the whole byte is (R63). -/
theorem decodeOpcode_eq_some {map : OpcodeMap} (hmap : map.Distinct) {b : Byte} {m : Mnemonic} :
    decodeOpcode map b = some m ↔ b = map m := by
  refine ⟨fun h => (decodeOpcode_sound h).symm, fun h => ?_⟩
  cases hd : decodeOpcode map b with
  | none => exact absurd h.symm (decodeOpcode_none.mp hd m)
  | some n => rw [hmap n m ((decodeOpcode_sound hd).trans h)]

/-- An opcode byte that is ILLEGAL stops the decoder, whatever bytes follow (R69). -/
theorem decodeWith_of_illegal {map : OpcodeMap} {b : Byte} (h : decodeOpcode map b = none) (bytes : List Byte) :
    decodeWith map (b :: bytes) = .error (.illegalOpcode b) := by
  rw [decodeWith, h]

theorem Mnemonic.all_nodup : Mnemonic.all.Nodup := by decide

/-- The opcode bytes of a map as numbers, in the order of the mnemonics. -/
def opcodeNumbers (map : OpcodeMap) : List Nat := Mnemonic.all.map fun m => (map m).toNat

theorem opcodeNumbers_nodup {map : OpcodeMap} (hmap : map.Distinct) : (opcodeNumbers map).Nodup :=
  Mnemonic.all_nodup.map fun m n h => hmap m n (BitVec.eq_of_toNat_eq h)

/-- A number below 256 is an opcode's exactly when the multiplexer does not answer ILLEGAL for its byte. -/
theorem mem_opcodeNumbers {map : OpcodeMap} {n : Nat} :
    n ∈ opcodeNumbers map ↔ n < 256 ∧ decodeOpcode map (BitVec.ofNat 8 n) ≠ none := by
  simp only [opcodeNumbers, List.mem_map, Mnemonic.mem_all, true_and, ne_eq, decodeOpcode_none, not_forall, not_not]
  constructor
  · rintro ⟨m, rfl⟩
    exact ⟨(map m).isLt, m, by rw [BitVec.ofNat_toNat, BitVec.setWidth_eq]⟩
  · rintro ⟨hn, m, hm⟩
    exact ⟨m, by rw [hm, BitVec.toNat_ofNat, Nat.mod_eq_of_lt hn]⟩

/-- The legal byte values are the fifteen opcodes, in some order. -/
theorem legal_perm_opcodeNumbers {map : OpcodeMap} (hmap : map.Distinct) :
    ((List.range 256).filter fun n => !decide (decodeOpcode map (BitVec.ofNat 8 n) = none)).Perm
      (opcodeNumbers map) := by
  rw [List.perm_ext_iff_of_nodup (List.nodup_range.filter _) (opcodeNumbers_nodup hmap)]
  intro n
  simp [mem_opcodeNumbers]

/-- An injective map leaves 241 byte values illegal: 256 less its fifteen opcodes (R69). -/
theorem illegal_length {map : OpcodeMap} (hmap : map.Distinct) :
    ((List.range 256).filter fun n => decodeOpcode map (BitVec.ofNat 8 n) = none).length = 241 := by
  have hsplit := List.length_eq_length_filter_add (l := List.range 256)
    fun n => decide (decodeOpcode map (BitVec.ofNat 8 n) = none)
  have hlegal : (opcodeNumbers map).length = 15 := List.length_map _
  rw [List.length_range, (legal_perm_opcodeNumbers hmap).length_eq, hlegal] at hsplit
  omega

end Sys2Proof

namespace Sys2Proof.Machine

/-- When the decoder answers no instruction, the step latches the opcode byte in IR and raises IllegalInstruction
with it (R69, R81). -/
theorem engineStep_of_decode_error {map : OpcodeMap} {s : State} {e : DecodeError} (hrun : s.run = .running)
    (hpc : s.pc.toNat < 256) (h : decodeWith map (fetchWindow s) = .error e) :
    engineStep map s =
      .next ((s.latchIr (fetchByte s 0)).takeFault .illegalInstruction .none ((fetchByte s 0).setWidth 9)) := by
  simp only [engineStep, hrun, runningStep, if_pos hpc, h, raise_eq, State.latchIr_ir]

/-- Settles O4: an opcode byte is legal for the mnemonic it belongs to, and injectivity leaves no other. -/
theorem opcodeByteIsComparedWhole : Obligations.OpcodeByteIsComparedWhole :=
  fun _ hmap _ _ => decodeOpcode_eq_some hmap

/-- Settles O6: an illegal opcode byte stops the decoder, and the legal byte values are the fifteen opcodes. -/
theorem illegalOpcodeBytesFault : Obligations.IllegalOpcodeBytesFault := by
  refine ⟨fun map s b hrun hpc hb hillegal => ?_, fun _ => illegal_length⟩
  have hbyte : fetchByte s 0 = b := (fetchByte_zero hpc).trans hb
  have hdec : decodeWith map (fetchWindow s) = .error (.illegalOpcode b) :=
    hbyte ▸ decodeWith_of_illegal (hbyte.symm ▸ decodeOpcode_none.mpr hillegal) _
  rw [engineStep_of_decode_error hrun hpc hdec, hbyte, BitVec.ofNat_toNat]
  rfl

/-- Settles O37, by the way LDI completes. -/
theorem ldiLoadsTheByteAsItIs : Obligations.LdiLoadsTheByteAsItIs :=
  fun _ imm _ _ hr hpc => (Completes.ldi imm hr hpc).exec_eq

end Sys2Proof.Machine

/-! ## Dispatch by the byte fetched (R83) -/

namespace Sys2Proof

/-- A legal opcode byte leaves the bytes after it to its mnemonic's format (R61, R63). -/
theorem decodeWith_of_opcode {map : OpcodeMap} (hmap : map.Distinct) (m : Mnemonic) (bytes : List Byte) :
    decodeWith map (map m :: bytes) = decodeOperands m bytes := by
  rw [decodeWith, (decodeOpcode_eq_some hmap).mpr rfl]

theorem Instr.eq_hlt {i : Instr} (h : i.mnemonic = .hlt) : i = .hlt := by
  cases i with
  | hlt => rfl
  | _ => cases h

end Sys2Proof

namespace Sys2Proof.Machine

/-- A byte of the fetch window is its cell's, where there is such a cell (R54, R82). -/
theorem eq_memGet_of_fetchWindow {s : State} {k : Nat} {v : Byte} (hv : (fetchWindow s)[k]? = some v)
    (hk : s.pc.toNat + k < 256) : v = memGet s.mem (s.pc.toNat + k) := by
  have hbyte : fetchByte s k = memGet s.mem (s.pc.toNat + k) := if_pos hk
  rw [← hbyte]
  match k, hv with
  | 0, hv | 1, hv | 2, hv => exact (Option.some.inj hv).symm

/-- The operand bytes of the instruction a step decodes are those that follow its opcode in memory (R60). -/
theorem operandByte_eq_memGet {map : OpcodeMap} {s : State} {i : Instr} {rest : List Byte}
    (hdec : decodeWith map (fetchWindow s) = .ok (i, rest)) {k : Nat} {v : Byte} (hv : i.operandBytes[k]? = some v)
    (hk : s.pc.toNat + 1 + k < 256) : v = memGet s.mem (s.pc.toNat + 1 + k) := by
  have hwindow : (fetchWindow s)[1 + k]? = some v := by
    obtain ⟨hlt, -⟩ := List.getElem?_eq_some_iff.mp hv
    rw [decodeWith_ok hdec, encodeWith, List.cons_append, Nat.add_comm, List.getElem?_cons_succ,
      List.getElem?_append_left hlt, hv]
  rw [Nat.add_assoc] at hk ⊢
  exact eq_memGet_of_fetchWindow hwindow hk

/-- When the decoder answers an instruction, the step latches the opcode byte in IR and performs it (R81, R83). -/
theorem engineStep_of_decode_ok {map : OpcodeMap} {s : State} {i : Instr} {rest : List Byte} (hrun : s.run = .running)
    (hpc : s.pc.toNat < 256) (h : decodeWith map (fetchWindow s) = .ok (i, rest)) :
    engineStep map s = exec i (s.latchIr (memGet s.mem s.pc.toNat)) := by
  simp only [engineStep, hrun, runningStep, if_pos hpc, h, fetchByte_zero hpc]

/-- Where the cell at `pc` holds an opcode, the fetch window decodes to an instruction of its mnemonic (R63). -/
theorem exists_decode_of_opcode {map : OpcodeMap} {s : State} {m : Mnemonic} (hmap : map.Distinct)
    (hpc : s.pc.toNat < 256) (hm : memGet s.mem s.pc.toNat = map m) :
    ∃ i rest, decodeWith map (fetchWindow s) = .ok (i, rest) ∧ i.mnemonic = m := by
  rw [fetchWindow, fetchByte_zero hpc, hm, decodeWith_of_opcode hmap]
  exact decodeOperands_two m _ _

/-- Settles O7: an opcode's window decodes to an instruction of its mnemonic, which for HLT is HLT alone; any other byte
is illegal. -/
theorem dispatchIsHaltTableOrIllegal : Obligations.DispatchIsHaltTableOrIllegal := by
  rintro map s b hmap hrun hpc rfl
  refine ⟨fun hhlt => ?_, fun m _ hm => ?_, fun hillegal => ?_⟩
  · obtain ⟨i, rest, hdec, hi⟩ := exists_decode_of_opcode hmap hpc hhlt
    rw [engineStep_of_decode_ok hrun hpc hdec, Instr.eq_hlt hi]
    rfl
  · obtain ⟨i, rest, hdec, hi⟩ := exists_decode_of_opcode hmap hpc hm
    exact ⟨i, hi, fun _ _ => operandByte_eq_memGet hdec, engineStep_of_decode_ok hrun hpc hdec⟩
  · exact illegalOpcodeBytesFault.1 map s _ hrun hpc rfl fun m => (hillegal m).symm

end Sys2Proof.Machine

/-! ## What the ALU computes, as numbers (R111, R115, R117, R120) -/

namespace Sys2Proof.Machine

theorem aluAdd_toNat (u v : Byte) : (aluAdd u v).toNat = (u.toNat + v.toNat) % 256 := BitVec.toNat_add u v

theorem aluAdd_toNat_of_le {u v : Byte} (h : u.toNat + v.toNat ≤ 255) : (aluAdd u v).toNat = u.toNat + v.toNat :=
  BitVec.toNat_add_of_lt (Nat.lt_succ_of_le h)

/-- A sum past 255 wraps around once, for it is below 512. -/
theorem aluAdd_toNat_of_lt {u v : Byte} (h : 255 < u.toNat + v.toNat) :
    (aluAdd u v).toNat = u.toNat + v.toNat - 256 := by
  rw [aluAdd_toNat]
  omega

theorem aluSub_toNat_of_le {u v : Byte} (h : v.toNat ≤ u.toNat) : (aluSub u v).toNat = u.toNat - v.toNat :=
  BitVec.toNat_sub_of_le h

/-- A difference below 0 wraps around once. -/
theorem aluSub_toNat_of_lt {u v : Byte} (h : u.toNat < v.toNat) : (aluSub u v).toNat = u.toNat + 256 - v.toNat := by
  rw [aluSub, BitVec.toNat_sub]
  omega

/-- The difference as the exact integer one, reduced into 0..255 (R115). -/
theorem aluSub_toNat_int (u v : Byte) : ((aluSub u v).toNat : Int) = ((u.toNat : Int) - (v.toNat : Int)) % 256 := by
  rcases Nat.lt_or_ge u.toNat v.toNat with h | h
  · rw [aluSub_toNat_of_lt h]
    omega
  · rw [aluSub_toNat_of_le h]
    omega

theorem aluMul_toNat (u v : Byte) : (aluMul u v).toNat = (u.toNat * v.toNat) % 256 := BitVec.toNat_mul u v

/-- The result is bits 7:0 of the product taken at 16 bits (R118): 2 to the 8th divides 2 to the 16th. -/
theorem aluMul_eq_extractLsb' (u v : Byte) : aluMul u v = (BitVec.ofNat 16 (u.toNat * v.toNat)).extractLsb' 0 8 := by
  apply BitVec.eq_of_toNat_eq
  rw [aluMul_toNat, BitVec.extractLsb'_toNat, BitVec.toNat_ofNat, Nat.shiftRight_zero]
  exact (Nat.mod_mod_of_dvd _ (by decide : 2 ^ 8 ∣ 2 ^ 16)).symm

theorem equalFlag_eq_true {u v : Byte} : equalFlag u v = true ↔ u = v := beq_iff_eq

/-- Settles O39: ADD completes with the ALU's sum, which is the sum modulo 256. -/
theorem addIsModulo256 : Obligations.AddIsModulo256 :=
  fun _ _ a b s ha hb hpc => ⟨aluAdd (s.reg a) (s.reg b), aluAdd_toNat _ _, aluAdd_toNat_of_le, aluAdd_toNat_of_lt,
    (Completes.add ha hb hpc).exec_eq⟩

/-- Settles O40: SUB completes with the ALU's difference, which is the integer one modulo 256. -/
theorem subIsModulo256 : Obligations.SubIsModulo256 :=
  fun _ _ a b s ha hb hpc => ⟨aluSub (s.reg a) (s.reg b), aluSub_toNat_int _ _, aluSub_toNat_of_le, aluSub_toNat_of_lt,
    (Completes.sub ha hb hpc).exec_eq⟩

/-- Settles O41: MUL completes with the ALU's product, which is the low byte of the 16-bit one. -/
theorem mulKeepsTheLowByte : Obligations.MulKeepsTheLowByte :=
  fun _ _ a b s ha hb hpc => ⟨aluMul (s.reg a) (s.reg b), aluMul_toNat _ _, aluMul_eq_extractLsb' _ _,
    (Completes.mul ha hb hpc).exec_eq⟩

/-- Settles O42: CMP completes with a write of E alone, which reads back as the comparison and keeps bits 7 to 1. -/
theorem cmpSetsTheEqualFlag : Obligations.CmpSetsTheEqualFlag := by
  intro ra rb a b s ha hb hpc
  refine ⟨(s.setFlagE (equalFlag (s.reg a) (s.reg b))).fl, ?_, s.setFlagE_high _, (Completes.cmp ha hb hpc).exec_eq⟩
  have hE : (s.setFlagE (equalFlag (s.reg a) (s.reg b))).fl.getLsbD 0 = equalFlag (s.reg a) (s.reg b) :=
    s.setFlagE_flagE _
  rw [hE, equalFlag_eq_true]

end Sys2Proof.Machine

/-! ## Where control goes (R145) -/

namespace Sys2Proof.Machine

/-- A byte as a `pc` is the number it is: 9 bits hold every byte. -/
theorem toPc_eq_ofNat (v : Byte) : toPc v = BitVec.ofNat 9 v.toNat := (BitVec.ofNat_toNat 9 v).symm

/-- Settles O47, by the way JMP completes. -/
theorem jmpGoesToTheRegister : Obligations.JmpGoesToTheRegister := by
  intro r d s hr hpc
  rw [(Completes.jmp hr hpc).exec_eq, toPc_eq_ofNat]
  rfl

end Sys2Proof.Machine

/-! ## Every instruction answers a next state -/

namespace Sys2Proof.Machine

/-- `r` is a next state: neither a stuck state nor a refusal. -/
def Answers (r : Res) : Prop := ∃ t, r = .next t

theorem answers_next (t : State) : Answers (.next t) := ⟨t, rfl⟩

section Checks
variable {s : State}

theorem withOperand_answers {k : Nat} {go : Res} (h : Answers go) : Answers (withOperand k s go) := by
  rcases withOperand_cases k s go with ⟨_, e⟩ | ⟨_, e⟩
  · rwa [e]
  · exact ⟨_, e⟩

theorem withReg_answers {r : Byte} {go : RegIndex → Res} (h : ∀ d, Answers (go d)) : Answers (withReg r s go) := by
  rcases withReg_cases r s go with ⟨d, _, e⟩ | ⟨_, e⟩
  · rw [e]; exact h d
  · exact ⟨_, e⟩

theorem withPush_answers {go : State → Res} (h : ∀ t, Answers (go t)) : Answers (withPush s go) := by
  rcases withPush_cases s go with ⟨_, e⟩ | ⟨_, e⟩
  · rw [e]; exact h _
  · exact ⟨_, e⟩

theorem withPop_answers {sp : Byte} {go : Res} (h : Answers go) : Answers (withPop sp s go) := by
  rcases withPop_cases sp s go with ⟨_, e⟩ | ⟨_, e⟩
  · rwa [e]
  · exact ⟨_, e⟩

theorem aluInstr_answers (op : AluOp) (ra rb : Byte) : Answers (aluInstr op ra rb s) :=
  withOperand_answers <| withOperand_answers <| withReg_answers fun _ => withReg_answers fun _ => answers_next _

theorem jump_answers (r : Byte) : Answers (jump r s) :=
  withOperand_answers <| withReg_answers fun _ => answers_next _

theorem branch_answers (taken : Bool) (r : Byte) : Answers (branch taken r s) := by
  cases taken with
  | false => exact answers_next _
  | true => exact jump_answers r

end Checks

/-- No instruction is stuck or refused at any state: it completes or takes its fault (R172). -/
theorem exec_answers (i : Instr) (s : State) : Answers (exec i s) := by
  cases i with
  | ldi r imm => exact withOperand_answers <| withOperand_answers <| withReg_answers fun _ => answers_next _
  | prn r => exact withOperand_answers <| withReg_answers fun _ => answers_next _
  | add | sub | mul | cmp => exact aluInstr_answers _ _ _
  | push r | call r =>
    exact withOperand_answers <| withReg_answers fun _ => withPush_answers fun _ => answers_next _
  | pop r => exact withOperand_answers <| withReg_answers fun _ => withPop_answers <| answers_next _
  | ret => exact withPop_answers <| answers_next _
  | jmp r => exact jump_answers r
  | jeq r | jne r => exact branch_answers _ r
  | nop | hlt => exact answers_next _

/-- At a `pc` past the last cell the step raises the FETCH fault (R81). -/
theorem engineStep_of_ge {map : OpcodeMap} {s : State} (hrun : s.run = .running) (hpc : 256 ≤ s.pc.toNat) :
    engineStep map s = .next (s.takeFault .outOfBounds .fetch s.pc) := by
  simp only [engineStep, hrun, runningStep, if_neg (Nat.not_lt.mpr hpc), raise_eq]

/-- A step is enabled in every running state, whatever stands at `pc` (R80, R86). -/
theorem engineStep_answers {map : OpcodeMap} {s : State} (hrun : s.run = .running) : Answers (engineStep map s) := by
  rcases Nat.lt_or_ge s.pc.toNat 256 with hpc | hpc
  · cases hdec : decodeWith map (fetchWindow s) with
    | ok d => exact engineStep_of_decode_ok hrun hpc hdec ▸ exec_answers d.1 _
    | error e => exact ⟨_, engineStep_of_decode_error hrun hpc hdec⟩
  · exact ⟨_, engineStep_of_ge hrun hpc⟩

end Sys2Proof.Machine

/-! ## NOP and HLT (R161, R163, R164) -/

namespace Sys2Proof.Machine

theorem step_of_halted {s : State} (h : s.run = .halted) : step s = .fault .stoppedHalted := by
  rw [step, engineStep, h]

/-- A run from HALTED of any length ends at once, where it is (R164). -/
theorem runFor_of_halted {s : State} (h : s.run = .halted) (n : Nat) : runFor n s = .halted s := by
  have hs : RunResult.ofState s = .halted s := by rw [RunResult.ofState, h]
  cases n with
  | zero => exact hs
  | succ n => rw [runFor, step_of_halted h, hs]

/-- A state with no step enabled is HALTED or FAULTED (R80). -/
theorem halted_or_faulted_of_stopped {s : State} (h : ∀ t, step s ≠ .next t) : s.run = .halted ∨ s.run = .faulted := by
  cases hrun : s.run with
  | running =>
    obtain ⟨t, ht⟩ := engineStep_answers (map := machineOpcodeMap) hrun
    exact absurd ht (h t)
  | halted => exact .inl rfl
  | faulted => exact .inr rfl

/-- Settles O14: a halted state's step is stuck, and every running state's step answers a next state. -/
theorem haltedIsFinal : Obligations.HaltedIsFinal := by
  refine ⟨fun s h => ⟨fun t ht => ?_, runFor_of_halted h⟩, fun _ => halted_or_faulted_of_stopped⟩
  rw [step_of_halted h] at ht
  cases ht

/-- Settles O50, by the way NOP completes. -/
theorem nopAdvances : Obligations.NopAdvances :=
  fun _ => Completes.nop.exec_eq

end Sys2Proof.Machine

/-! ## What a step fetches (R81), and where execution starts (R201) -/

namespace Sys2Proof.Machine

/-- No instruction writes IR, nor does a fault: the fetch alone latches it (R35, R81). -/
theorem exec_ir {i : Instr} {s t : State} (h : exec i s = .next t) : t.ir = s.ir := by
  rcases exec_next h with ⟨c, k, v, rfl⟩ | hc
  · rfl
  · cases hc with
    | _ => rfl

/-- Below 256 a step ends with the byte it fetched in IR, whatever came of that byte (R81). -/
theorem engineStep_ir {map : OpcodeMap} {s t : State} (hpc : s.pc.toNat < 256) (h : engineStep map s = .next t) :
    t.ir = memGet s.mem s.pc.toNat := by
  rw [← fetchByte_zero hpc]
  obtain ⟨-, ⟨hge, -⟩ | ⟨-, ⟨e, -, rfl⟩ | ⟨i, rest, -, hx⟩⟩⟩ := engineStep_next h
  · exact absurd hpc (Nat.not_lt.mpr hge)
  · rfl
  · rw [exec_ir hx, State.latchIr_ir]

theorem loadImage_run {image : List Byte} {s : State} (h : loadImage image = .next s) : s.run = .running := by
  rw [loadImage_next h]
  rfl

theorem loadImage_pc {image : List Byte} {s : State} (h : loadImage image = .next s) : s.pc = 0#9 := by
  rw [loadImage_next h]
  rfl

/-- Settles O19: a loaded state is running at 0, so its step fetches the cell where the load put the first byte. -/
theorem entryPointIsAddressZero : Obligations.EntryPointIsAddressZero := by
  intro image s h
  have hzero : s.pc.toNat = 0 := by rw [loadImage_pc h]; rfl
  have hpc : s.pc.toNat < 256 := by omega
  obtain ⟨t, ht⟩ := engineStep_answers (map := machineOpcodeMap) (loadImage_run h)
  refine ⟨loadImage_pc h, t, ht, ?_⟩
  calc t.ir = memGet s.mem s.pc.toNat := engineStep_ir hpc ht
    _ = image.getD s.pc.toNat 0#8 := loadImage_memGet h hpc
    _ = image.getD 0 0#8 := by rw [hzero]

end Sys2Proof.Machine

/-! ## Decoding and encoding agree (R60 to R63, R71) -/

namespace Sys2Proof

/-- Under an injective map an instruction's bytes decode to it, whatever follows them. -/
theorem decodeWith_encodeWith {map : OpcodeMap} (hmap : map.Distinct) (i : Instr) (rest : List Byte) :
    decodeWith map (encodeWith map i ++ rest) = .ok (i, rest) := by
  rw [encodeWith, List.cons_append, decodeWith_of_opcode hmap, decodeOperands_operandBytes]

/-- The multiplexer's answer for the first byte is the mnemonic of what the bytes decode to (R63). -/
theorem decodeOpcode_of_decodeWith {map : OpcodeMap} {b : Byte} {bytes rest : List Byte} {i : Instr}
    (h : decodeWith map (b :: bytes) = .ok (i, rest)) : decodeOpcode map b = some i.mnemonic := by
  unfold decodeWith at h
  dsimp only at h
  split at h
  next => cases h
  next m hm => rw [hm, (decodeOperands_ok h).1]

@[simp] theorem Instr.operandBytes_length (i : Instr) : i.operandBytes.length = i.mnemonic.operandCount := by
  cases i <;> rfl

theorem encodeWith_length (map : OpcodeMap) (i : Instr) :
    (encodeWith map i).length = i.mnemonic.operandCount + 1 := by
  rw [encodeWith, List.length_cons, Instr.operandBytes_length]

theorem Mnemonic.operandCount_le (m : Mnemonic) : m.operandCount ≤ 2 := by
  cases m <;> decide

/-- What follows the opcode byte is the operand bytes, as many as the mnemonic has, and what is left (R61). -/
theorem length_of_decodeWith {map : OpcodeMap} {b : Byte} {bytes rest : List Byte} {i : Instr}
    (h : decodeWith map (b :: bytes) = .ok (i, rest)) :
    bytes.length = i.mnemonic.operandCount + rest.length := by
  have hbytes : bytes = i.operandBytes ++ rest := (List.cons.inj (decodeWith_ok h)).2
  rw [hbytes, List.length_append, Instr.operandBytes_length]

/-- Settles O2: the opcode selects the mnemonic's format, which takes the operand bytes and no more. -/
theorem decodeOfEncodeIsTheInstruction : Obligations.DecodeOfEncodeIsTheInstruction :=
  fun _ hmap => decodeWith_encodeWith hmap

/-- Settles O3, by what it takes to decode. -/
theorem decodedBytesAreTheEncoding : Obligations.DecodedBytesAreTheEncoding :=
  fun _ _ _ _ => decodeWith_ok

/-- Settles O5: the multiplexer sees the first byte alone, and answers one mnemonic. -/
theorem opcodeAloneFixesTheLength : Obligations.OpcodeAloneFixesTheLength := by
  intro map b bytes bytes' rest rest' i i' h h'
  have hm : i.mnemonic = i'.mnemonic :=
    Option.some.inj ((decodeOpcode_of_decodeWith h).symm.trans (decodeOpcode_of_decodeWith h'))
  exact ⟨hm, length_of_decodeWith h, hm ▸ length_of_decodeWith h'⟩

/-- Settles O1: each word is the encoding of its instruction under the default map. -/
theorem defaultOpcodeWordsDecode : Obligations.DefaultOpcodeWordsDecode :=
  have decodes (i : Instr) (rest : List Byte) : decode (encode i ++ rest) = .ok (i, rest) :=
    decodeWith_encodeWith machineOpcodeMap_distinct i rest
  ⟨decodes (.ldi 3#8 255#8) [], decodes (.prn 1#8) [], decodes (.add 1#8 2#8) [], decodes (.sub 3#8 4#8) [],
    decodes (.mul 5#8 6#8) [], decodes (.cmp 7#8 0#8) [], decodes (.push 7#8) [], decodes (.pop 2#8) [],
    decodes (.call 4#8) [], decodes .ret [1#8], decodes (.jmp 6#8) [], decodes (.jeq 9#8) [],
    decodes (.jne 128#8) [], decodes .nop [], decodes .hlt [130#8]⟩

end Sys2Proof

/-! ## A step runs the instruction that stands in memory (R81, R83) -/

namespace Sys2Proof.Machine

/-- The fetch window holds the cells from `pc` on, as far as there are cells (R54, R82). -/
theorem fetchWindow_getElem? {s : State} {k : Nat} (hk : k < 3) (hpc : s.pc.toNat + k < 256) :
    (fetchWindow s)[k]? = some (memGet s.mem (s.pc.toNat + k)) := by
  have hlt : k < (fetchWindow s).length := hk
  rw [List.getElem?_eq_getElem hlt]
  exact congrArg some (eq_memGet_of_fetchWindow (List.getElem?_eq_getElem hlt) hpc)

/-- Memory from `pc` on holds the bytes of `i`. -/
def HoldsAtPc (map : OpcodeMap) (i : Instr) (s : State) : Prop :=
  ∀ (k : Nat) (v : Byte), (encodeWith map i)[k]? = some v →
    s.pc.toNat + k < 256 ∧ memGet s.mem (s.pc.toNat + k) = v

/-- Where memory holds an instruction's bytes, the fetch window begins with them. -/
theorem HoldsAtPc.encodeWith_isPrefix {map : OpcodeMap} {i : Instr} {s : State} (h : HoldsAtPc map i s) :
    encodeWith map i <+: fetchWindow s := by
  rw [List.prefix_iff_getElem?]
  intro k hk
  obtain ⟨hpc, hv⟩ := h k _ (List.getElem?_eq_getElem hk)
  have hcount := i.mnemonic.operandCount_le
  rw [encodeWith_length] at hk
  rw [fetchWindow_getElem? (by omega) hpc, hv]

/-- Where memory holds an instruction's bytes, a step performs it, with its opcode latched in IR. -/
theorem HoldsAtPc.engineStep_eq {map : OpcodeMap} {i : Instr} {s : State} (h : HoldsAtPc map i s)
    (hmap : map.Distinct) (hrun : s.run = .running) :
    engineStep map s = exec i (s.latchIr (map i.mnemonic)) := by
  obtain ⟨hpc, hopcode⟩ := h 0 _ rfl
  obtain ⟨rest, hwindow⟩ := h.encodeWith_isPrefix
  rw [engineStep_of_decode_ok hrun hpc (hwindow ▸ decodeWith_encodeWith hmap i rest)]
  exact congrArg (fun b => exec i (s.latchIr b)) hopcode

/-- Settles O8, by what the window holds and what a step does with what it decodes to. -/
theorem stepRunsTheDecodedInstruction : Obligations.StepRunsTheDecodedInstruction :=
  ⟨fun _ _ => fetchWindow_getElem?, fun _ _ _ => engineStep_of_decode_ok⟩

/-- Settles O9: the window begins with the instruction's bytes, and they decode to it. -/
theorem stepRunsTheEncodedInstruction : Obligations.StepRunsTheEncodedInstruction :=
  fun _ _ _ hmap hrun h => HoldsAtPc.engineStep_eq h hmap hrun

/-- Settles O10, by the way a fetch past the last cell ends. -/
theorem fetchPastTheLastCellFaults : Obligations.FetchPastTheLastCellFaults :=
  fun _ => engineStep_of_ge

end Sys2Proof.Machine

/-! ## Memory as its cells (R31, R43) -/

namespace Sys2Proof.Machine

theorem memGet_memCons_of_ne {a b : Nat} (h : b ≠ a) (v : Byte) (rest : Memory) :
    memGet (memCons a v rest) b = memGet rest b := by
  unfold memCons
  split
  · rfl
  · exact if_neg h.symm

/-- A write leaves every other cell, whatever the form of the memory (R43). -/
theorem memGet_memSet_of_ne {a b : Nat} (h : b ≠ a) (v : Byte) (m : Memory) : memGet (memSet m a v) b = memGet m b := by
  induction m with
  | nil => exact memGet_memCons_of_ne h v []
  | cons c rest ih =>
    obtain ⟨k, w⟩ := c
    unfold memSet
    split
    · exact memGet_memCons_of_ne h v _
    · split
      next hk => rw [memGet_memCons_of_ne h, memGet, if_neg (hk ▸ h.symm)]
      next => rw [memGet, memGet, ih]

theorem State.write_read_of_ne {a b : Byte} (h : b ≠ a) (s : State) (v : Byte) : (s.write a v).read b = s.read b :=
  memGet_memSet_of_ne (fun e => h (BitVec.eq_of_toNat_eq e)) v s.mem

/-- A canonical memory lists exactly the cells that do not hold 0, each with what it holds. -/
theorem mem_iff_memGet {m : Memory} (hm : Memory.wf m) (a : Nat) (v : Byte) :
    (a, v) ∈ m ↔ memGet m a = v ∧ v ≠ Memory.unlisted := by
  obtain ⟨hsorted, hlisted⟩ := hm
  induction m with
  | nil => simp only [List.not_mem_nil, memGet, false_iff]; exact fun ⟨h, hv⟩ => hv h.symm
  | cons c rest ih =>
    obtain ⟨k, w⟩ := c
    obtain ⟨hk, hrest⟩ := List.pairwise_cons.mp hsorted
    have ih := ih hrest fun c hc => hlisted c (List.mem_cons_of_mem _ hc)
    rw [List.mem_cons, ih, memGet, Prod.mk.injEq]
    by_cases hka : k = a
    · subst hka
      rw [if_pos rfl, memGet_of_lt rest k hk]
      constructor
      · rintro (⟨-, rfl⟩ | ⟨rfl, hv⟩)
        · exact ⟨rfl, (hlisted _ List.mem_cons_self).2⟩
        · exact absurd rfl hv
      · exact fun ⟨hv, _⟩ => .inl ⟨rfl, hv.symm⟩
    · rw [if_neg hka, or_iff_right fun h => hka h.1.symm]

/-- A canonical memory reads 0 past the last cell, which it cannot list. -/
theorem memGet_of_ge {m : Memory} (hm : Memory.wf m) {a : Nat} (ha : 256 ≤ a) : memGet m a = Memory.unlisted := by
  by_contra hv
  have hlt : a < 256 := (hm.2 _ ((mem_iff_memGet hm a _).mpr ⟨rfl, hv⟩)).1
  omega

/-- Settles O22: a canonical memory lists the cells it reads, in the one order there is. -/
theorem equalCellsMeanEqualMemories : Obligations.EqualCellsMeanEqualMemories := by
  intro m m' hm hm' heq
  have hget (a : Nat) : memGet m a = memGet m' a := by
    rcases Nat.lt_or_ge a 256 with ha | ha
    · exact heq a ha
    · rw [memGet_of_ge hm ha, memGet_of_ge hm' ha]
  have hmem (c : Host.Cell) : c ∈ m ↔ c ∈ m' := by
    rw [mem_iff_memGet hm, mem_iff_memGet hm', hget]
  have hnodup {l : Memory} (hl : Memory.wf l) : l.Nodup := hl.1.imp fun h e => Nat.ne_of_lt h (congrArg Prod.fst e)
  refine ((List.perm_ext_iff_of_nodup (hnodup hm) (hnodup hm')).mpr hmem).eq_of_pairwise ?_ hm.1 hm'.1
  exact fun _ _ _ _ h h' => absurd h (Nat.lt_asymm h')

/-- Settles O23, by reading after a write. -/
theorem memWriteChangesOneCell : Obligations.MemWriteChangesOneCell :=
  fun s a v h =>
    ⟨(s.write_read a v a h).trans (if_pos rfl), fun _ hb => s.write_read_of_ne hb v, rfl, s.write_wf a v h⟩

/-- The cell an instruction stores to is the only one that may read otherwise after it (R41, R43). -/
theorem exec_read {i : Instr} {s t : State} {a : Byte} (h : exec i s = .next t) (ha : storeAddress i s ≠ some a) :
    t.read a = s.read a := by
  rcases exec_next h with ⟨c, k, v, rfl⟩ | hc
  · rfl
  · cases hc with
    | push | call => exact State.write_read_of_ne (fun e => ha (congrArg some e.symm)) _ _
    | _ => rfl

/-- Settles O33, from what an instruction can answer. -/
theorem otherCellsReadAsBefore : Obligations.OtherCellsReadAsBefore :=
  fun _ _ _ _ => exec_read

/-- Settles O18: a load is the reset state with the image placed. -/
theorem loadPlacesTheImageInTheResetState : Obligations.LoadPlacesTheImageInTheResetState := by
  refine ⟨fun image hlen => ?_, fun image hlen => if_neg (Nat.not_le.mpr hlen)⟩
  have hload : loadImage image = .next { State.reset with mem := memPlace State.reset.mem 0 image } := if_pos hlen
  exact ⟨_, hload, rfl, rfl, rfl, rfl, rfl, rfl, fun a => loadImage_memGet hload⟩

/-- The reset state is legal with any canonical memory in it (R38). -/
theorem State.reset_inv {m : Memory} (hm : Memory.wf m) : { State.reset with mem := m }.Inv where
  mem_wf := hm
  fl_high := by simp [State.reset]
  pc_range := Nat.zero_le _
  fault_iff := by simp [State.reset]
  fault_ok := nofun

/-- Settles O21: a load differs from the reset state in memory alone, which it leaves canonical. -/
theorem resetAndLoadedStatesAreLegal : Obligations.ResetAndLoadedStatesAreLegal := by
  refine ⟨State.reset_inv State.reset_mem_wf, fun image s h => ?_⟩
  rw [loadImage_next h]
  exact State.reset_inv (memPlace_wf image _ 0 State.reset_mem_wf)

/-- Settles O27, by the numbers written out for each code and kind. -/
theorem faultRecordNumbers : Obligations.FaultRecordNumbers := by
  refine ⟨fun s h => ?_, fun s f h => ?_⟩
  · rw [State.faultCodeNumber, State.faultKindNumber, h]
    exact ⟨rfl, rfl⟩
  · rw [State.faultCodeNumber, State.faultKindNumber, h]
    obtain ⟨code, kind, addr, value⟩ := f
    exact ⟨by cases code <;> rfl, by cases kind <;> rfl⟩

end Sys2Proof.Machine

/-! ## The whole next state of an instruction that completes -/

namespace Sys2Proof.Machine

/-- What a register holds once a push has decremented SP: the new SP in R7, the old value elsewhere (R131, R141). -/
theorem reg_setSp_pushAddress (s : State) (d : RegIndex) :
    (s.setSp (pushAddress s)).reg d = if d = 7 then s.sp - 1#8 else s.reg d := by
  rw [State.setSp_reg, pushAddress]
  exact if_congr eq_comm rfl rfl

theorem State.setReg_sp_of_ne {d : RegIndex} (h : d ≠ 7) (s : State) (v : Byte) : (s.setReg d v).sp = s.sp :=
  s.setReg_reg_other d 7 v h

theorem toPc_toNat (v : Byte) : (toPc v).toNat = v.toNat :=
  BitVec.toNat_setWidth_of_le (by decide)

/-- One past a byte is a value of `pc`, for 9 bits hold 256. -/
theorem toPc_add_one_toNat (v : Byte) : (toPc v + 1#9).toNat = v.toNat + 1 := by
  have hv := v.isLt
  rw [BitVec.toNat_add, toPc_toNat, BitVec.toNat_ofNat]
  omega

theorem toPc_add_one (v : Byte) : toPc v + 1#9 = BitVec.ofNat 9 (v.toNat + 1) :=
  BitVec.eq_of_toNat_eq <| by
    have hv := v.isLt
    rw [toPc_add_one_toNat, BitVec.toNat_ofNat]
    omega

/-- The byte CALL pushes is the number one past `pc`, at 8 bits (R141). -/
theorem returnByte_eq_ofNat (s : State) : returnByte s = BitVec.ofNat 8 (s.pc.toNat + 1) :=
  BitVec.eq_of_toNat_eq <| by
    rw [returnByte, BitVec.toNat_setWidth, BitVec.toNat_add, BitVec.toNat_ofNat, BitVec.toNat_ofNat]
    omega

/-- Settles O38, by the way PRN completes. -/
theorem prnAppendsTheRegister : Obligations.PrnAppendsTheRegister :=
  fun _ _ _ hr hpc => (Completes.prn hr hpc).exec_eq

/-- Settles O43: PUSH completes with SP decremented before its register is read. -/
theorem pushStoresBelowTheStackPointer : Obligations.PushStoresBelowTheStackPointer := by
  intro r d s hr hpc hsp
  rw [(Completes.push hr hpc hsp).exec_eq, reg_setSp_pushAddress]
  rfl

/-- Settles O44: POP completes with the increment of the SP that its register write leaves. -/
theorem popLoadsFromTheStackPointer : Obligations.PopLoadsFromTheStackPointer := by
  refine ⟨fun r d s hr hd hpc hsp => ?_, fun s hpc hv => ?_⟩
  · have hsp' : (s.setReg d (s.read s.sp)).sp = s.sp := s.setReg_sp_of_ne hd _
    rw [(Completes.pop hr hpc (by rwa [hsp'])).exec_eq, hsp']
    rfl
  · have hsp' : (s.setReg 7 (s.read s.sp)).sp = s.read s.sp := s.setReg_reg_same 7 _
    have hset : (s.regs.set 7 (s.read s.sp)).set 7 (s.read s.sp + 1#8) = s.regs.set 7 (s.read s.sp + 1#8) :=
      Vector.set_set ..
    rw [(Completes.pop (r := 7#8) (d := 7) rfl hpc (by rwa [hsp'])).exec_eq, hsp', ← hset]
    rfl

/-- Settles O45: CALL completes with SP decremented before its register is read. -/
theorem callPushesAndEnters : Obligations.CallPushesAndEnters := by
  intro r d s hr hpc hsp
  rw [(Completes.call hr hpc hsp).exec_eq, reg_setSp_pushAddress, callEntry, toPc_add_one, returnByte_eq_ofNat]
  rfl

/-- Settles O46, by the way RET completes. -/
theorem retPopsAndReturns : Obligations.RetPopsAndReturns := by
  intro s hsp
  rw [(Completes.ret hsp).exec_eq, returnTarget, toPc_add_one]
  rfl

/-- Settles O48, by the two ways JEQ completes. -/
theorem jeqBranchesWhenEqual : Obligations.JeqBranchesWhenEqual := by
  refine ⟨fun r d s hE hr hpc => ?_, fun r s hE => (Completes.jeq_not_taken r hE).exec_eq⟩
  rw [(Completes.jeq_taken hE hr hpc).exec_eq, toPc_eq_ofNat]
  rfl

/-- Settles O49, by the two ways JNE completes. -/
theorem jneBranchesWhenNotEqual : Obligations.JneBranchesWhenNotEqual := by
  refine ⟨fun r d s hE hr hpc => ?_, fun r s hE => (Completes.jne_not_taken r hE).exec_eq⟩
  rw [(Completes.jne_taken hE hr hpc).exec_eq, toPc_eq_ofNat]
  rfl

/-- Settles O51, by the way HLT completes. -/
theorem hltHaltsInPlace : Obligations.HltHaltsInPlace :=
  fun _ => Completes.hlt.exec_eq

end Sys2Proof.Machine

/-! ## Faults in the catalogue's order (R170, R174)

`exec` meets its checks in the order of the table `faultOf`. One rule for each check carries that through an instruction:
the check raises the table's record, or goes on with the rest of the table. -/

namespace Sys2Proof.Machine

theorem firstFault_of_pos {p : Prop} [Decidable p] (h : p) (f : FaultRecord) (cs : List FaultCheck) :
    firstFault ((decide p, f) :: cs) = some f := by
  rw [firstFault, decide_eq_true h, if_pos rfl]

theorem firstFault_of_neg {p : Prop} [Decidable p] (h : ¬ p) (f : FaultRecord) (cs : List FaultCheck) :
    firstFault ((decide p, f) :: cs) = firstFault cs := by
  rw [firstFault, decide_eq_false h, if_neg Bool.false_ne_true]

/-- `s` with RUN at FAULTED and the record `f` (R172). -/
def State.withRecord (s : State) (f : FaultRecord) : State := { s with run := .faulted, fault := some f }

/-- The answer at `s` that a fault table gives: the state with the table's record, which is then a row of the catalogue
with its address at `pc`; or, where the table has no record, a next state that meets `P`. The record is claimed only
where an instruction is fetched at all, below 256 (log entry 10). -/
inductive Follows (s : State) (P : State → Prop) : Option FaultRecord → Res → Prop
  | record {f : FaultRecord} {t : State}
      (h : s.pc.toNat < 256 → t = s.withRecord f ∧ f.Catalogued ∧ f.addr = s.pc) : Follows s P (some f) (.next t)
  | done {t : State} (h : P t) : Follows s P none (.next t)

section Checks
variable {s : State} {P : State → Prop} {cs : List FaultCheck}

theorem Follows.of_some {f : FaultRecord} {r : Res} (h : Follows s P (some f) r) (hpc : s.pc.toNat < 256) :
    r = .next (s.withRecord f) ∧ f.Catalogued ∧ f.addr = s.pc := by
  cases h with
  | record h =>
    obtain ⟨rfl, hf⟩ := h hpc
    exact ⟨rfl, hf⟩

theorem Follows.of_none {r : Res} (h : Follows s P none r) : ∃ t, r = .next t ∧ P t := by
  cases h with
  | done h => exact ⟨_, rfl, h⟩

/-- The first operand check that fails does so at 256, for `pc` is below 256 and the check before it passed. -/
theorem withOperand_follows {k : Nat} {go : Res} (hk : k ≤ 2) (hprev : s.pc.toNat < 256 → s.pc.toNat + k ≤ 256)
    (hgo : s.pc.toNat + k < 256 → Follows s P (firstFault cs) go) :
    Follows s P (firstFault (operandCheck s k :: cs)) (withOperand k s go) := by
  rcases withOperand_cases k s go with ⟨hlt, e⟩ | ⟨hge, e⟩ <;> rw [e, operandCheck]
  · rw [firstFault_of_neg (by omega)]
    exact hgo hlt
  · rw [firstFault_of_pos (by omega)]
    refine .record fun hpc => ?_
    have h256 : s.pc.toNat + k = 256 := Nat.le_antisymm (hprev hpc) hge
    refine ⟨by rw [h256]; rfl, ⟨?_, rfl⟩, rfl⟩
    show s.pc = 254#9 ∨ s.pc = 255#9
    bv_omega

theorem oneOperand_follows {go : Res} (hgo : s.pc.toNat + 1 < 256 → Follows s P (firstFault cs) go) :
    Follows s P (firstFault (operandCheck s 1 :: cs)) (withOperand 1 s go) :=
  withOperand_follows (by omega) (by omega) hgo

theorem twoOperands_follow {go : Res} (hgo : s.pc.toNat + 2 < 256 → Follows s P (firstFault cs) go) :
    Follows s P (firstFault (operandCheck s 1 :: operandCheck s 2 :: cs)) (withOperand 1 s (withOperand 2 s go)) :=
  oneOperand_follows fun hpc => withOperand_follows (by omega) (by omega) hgo

theorem withReg_follows {r : Byte} {go : RegIndex → Res} (hpc : s.pc.toNat + 1 < 256)
    (hgo : ∀ d : RegIndex, r.toNat = d.val → Follows s P (firstFault cs) (go d)) :
    Follows s P (firstFault (registerCheck s r :: cs)) (withReg r s go) := by
  rcases withReg_cases r s go with ⟨d, hr, e⟩ | ⟨hge, e⟩ <;> rw [e, registerCheck]
  · have hd : r.toNat < 8 := hr ▸ d.isLt
    rw [firstFault_of_neg (by omega)]
    exact hgo d hr
  · rw [firstFault_of_pos hge]
    have hvalue : r.setWidth 9 = BitVec.ofNat 9 r.toNat := toPc_eq_ofNat r
    have hnat : (r.setWidth 9).toNat = r.toNat := toPc_toNat r
    rw [← hvalue]
    refine .record fun _ => ⟨rfl, ?_, rfl⟩
    exact ⟨by show s.pc.toNat < 255; omega, hnat.symm ▸ hge, hnat.symm ▸ r.isLt⟩

theorem withPush_follows {go : State → Res} (hpc : s.pc.toNat + 1 < 256)
    (hgo : s.sp ≠ 0#8 → Follows s P (firstFault cs) (go (s.setSp (pushAddress s)))) :
    Follows s P (firstFault (pushCheck s :: cs)) (withPush s go) := by
  rcases withPush_cases s go with ⟨hsp, e⟩ | ⟨hsp, e⟩ <;> rw [e, pushCheck]
  · rw [firstFault_of_neg hsp]
    exact hgo hsp
  · rw [firstFault_of_pos hsp]
    exact .record fun _ => ⟨rfl, ⟨by show s.pc.toNat < 255; omega, rfl⟩, rfl⟩

theorem withPop_follows {sp : Byte} {go : Res} (hgo : sp ≠ 255#8 → Follows s P (firstFault cs) go) :
    Follows s P (firstFault (popCheck s sp :: cs)) (withPop sp s go) := by
  rcases withPop_cases sp s go with ⟨hsp, e⟩ | ⟨hsp, e⟩ <;> rw [e, popCheck]
  · rw [firstFault_of_neg hsp]
    exact hgo hsp
  · rw [firstFault_of_pos hsp]
    exact .record fun hpc => ⟨rfl, ⟨hpc, rfl⟩, rfl⟩

theorem aluInstr_follows {op : AluOp} {ra rb : Byte}
    (hdone : ∀ a b : RegIndex, ra.toNat = a.val → rb.toNat = b.val → s.pc.toNat + 2 < 256 →
      P ((aluApply op a b s).setPc (s.pc + 3#9))) :
    Follows s P (firstFault [operandCheck s 1, operandCheck s 2, registerCheck s ra, registerCheck s rb])
      (aluInstr op ra rb s) :=
  twoOperands_follow fun hpc => withReg_follows (by omega) fun a ha => withReg_follows (by omega) fun b hb =>
    .done (hdone a b ha hb hpc)

theorem jump_follows {r : Byte}
    (hdone : ∀ d : RegIndex, r.toNat = d.val → s.pc.toNat + 1 < 256 → P (s.setPc (toPc (s.reg d)))) :
    Follows s P (firstFault [operandCheck s 1, registerCheck s r]) (jump r s) :=
  oneOperand_follows fun hpc => withReg_follows hpc fun d hr => .done (hdone d hr hpc)

end Checks

theorem eq_seven_iff {r : Byte} {d : RegIndex} (hr : r.toNat = d.val) : r = 7#8 ↔ d = 7 := by
  rw [← BitVec.toNat_inj, hr, Fin.ext_iff]
  rfl

/-- The SP that a register write leaves, by the byte that names the register (R133). -/
theorem setReg_sp_of_named {r : Byte} {d : RegIndex} (hr : r.toNat = d.val) (s : State) (v : Byte) :
    (s.setReg d v).sp = if r = 7#8 then v else s.sp := by
  rw [State.setReg_sp]
  exact if_congr (eq_seven_iff hr).symm rfl rfl

/-- An instruction raises the record of its table, or completes where the table has none (R174). -/
theorem exec_follows (i : Instr) (s : State) : Follows s (Completes s i) (faultOf i s) (exec i s) := by
  cases i with
  | ldi r imm => exact twoOperands_follow fun hpc => withReg_follows (by omega) fun d hr => .done (.ldi imm hr hpc)
  | prn r => exact oneOperand_follows fun hpc => withReg_follows hpc fun d hr => .done (.prn hr hpc)
  | add ra rb => exact aluInstr_follows fun _ _ => .add
  | sub ra rb => exact aluInstr_follows fun _ _ => .sub
  | mul ra rb => exact aluInstr_follows fun _ _ => .mul
  | cmp ra rb => exact aluInstr_follows fun _ _ => .cmp
  | push r =>
    exact oneOperand_follows fun hpc => withReg_follows hpc fun d hr => withPush_follows hpc fun hsp =>
      .done (.push hr hpc hsp)
  | pop r =>
    exact oneOperand_follows fun hpc => withReg_follows hpc fun d hr =>
      setReg_sp_of_named hr s (s.read s.sp) ▸ withPop_follows fun hsp => .done (.pop hr hpc hsp)
  | call r =>
    exact oneOperand_follows fun hpc => withReg_follows hpc fun d hr => withPush_follows hpc fun hsp =>
      .done (.call hr hpc hsp)
  | ret => exact withPop_follows fun hsp => .done (.ret hsp)
  | jmp r => exact jump_follows fun _ => .jmp
  | jeq r =>
    rw [faultOf, exec, execJeq]
    cases hE : s.flagE with
    | true => exact jump_follows fun _ => .jeq_taken hE
    | false => exact .done (.jeq_not_taken r hE)
  | jne r =>
    rw [faultOf, exec, execJne]
    cases hE : s.flagE with
    | true => exact .done (.jne_not_taken r hE)
    | false => exact jump_follows fun _ => .jne_taken hE
  | nop => exact .done .nop
  | hlt => exact .done .hlt

theorem exec_of_faultOf_eq_some {i : Instr} {s : State} {f : FaultRecord} (h : faultOf i s = some f)
    (hpc : s.pc.toNat < 256) : exec i s = .next (s.withRecord f) ∧ f.Catalogued ∧ f.addr = s.pc :=
  (h ▸ exec_follows i s).of_some hpc

theorem exec_of_faultOf_eq_none {i : Instr} {s : State} (h : faultOf i s = none) :
    ∃ t, exec i s = .next t ∧ Completes s i t :=
  (h ▸ exec_follows i s).of_none

theorem completes_of_faultOf_eq_none {i : Instr} {s t : State} (h : faultOf i s = none) (hx : exec i s = .next t) :
    Completes s i t := by
  obtain ⟨u, hu, hc⟩ := exec_of_faultOf_eq_none h
  cases hu.symm.trans hx
  exact hc

/-- Of the instructions that complete HLT alone writes RUN (R163). -/
theorem Completes.run_eq {i : Instr} {s t : State} (h : Completes s i t) :
    t.run = if i = .hlt then .halted else s.run := by
  cases h with
  | _ => rfl

/-- No instruction that completes writes FAULT (R33, R172). -/
theorem Completes.fault_eq {i : Instr} {s t : State} (h : Completes s i t) : t.fault = s.fault := by
  cases h with
  | _ => rfl

/-- Settles O24: the checks of each instruction are met in the order of its table. -/
theorem execFaultsAsTheCatalogueOrders : Obligations.ExecFaultsAsTheCatalogueOrders := by
  refine fun i s hrun hpc => ⟨fun f hf => (exec_of_faultOf_eq_some hf hpc).1, fun hnone => ?_⟩
  obtain ⟨t, hx, hc⟩ := exec_of_faultOf_eq_none hnone
  exact ⟨t, hx, hc.fault_eq, exec_ir hx, hrun ▸ hc.run_eq⟩

end Sys2Proof.Machine

/-! ## Everything a step of this machine can do -/

namespace Sys2Proof.Machine

/-- The decoder fails on three bytes only at an illegal opcode: no format has more operand bytes (R60, R69). -/
theorem decodeOpcode_eq_none_of_error {map : OpcodeMap} {b c d : Byte} {e : DecodeError}
    (h : decodeWith map [b, c, d] = .error e) : decodeOpcode map b = none := by
  cases hm : decodeOpcode map b with
  | none => rfl
  | some m =>
    obtain ⟨i, rest, hi, -⟩ := decodeOperands_two m c d
    rw [decodeWith, hm] at h
    cases hi.symm.trans h

/-- The record of an illegal opcode byte is a row of the catalogue (R69, R170). -/
theorem catalogued_illegalInstruction {a : Word9} {b : Byte} (ha : a.toNat < 256)
    (hb : decodeOpcode machineOpcodeMap b = none) :
    (⟨.illegalInstruction, .none, a, b.setWidth 9⟩ : FaultRecord).Catalogued := by
  have hnat : (b.setWidth 9).toNat = b.toNat := toPc_toNat b
  have hback : (b.setWidth 9).setWidth 8 = b :=
    BitVec.eq_of_toNat_eq (by rw [BitVec.toNat_setWidth, hnat, Nat.mod_eq_of_lt b.isLt])
  exact ⟨ha, hnat ▸ b.isLt, by rwa [hback]⟩

/-- A step records a fault of the catalogue at `pc`, and writes at most IR besides; or the instruction whose opcode is
fetched at `pc` completes, after IR has latched that byte (R81, R83, R172). -/
theorem step_next {s t : State} (h : step s = .next t) :
    s.run = .running ∧
    ((∃ (f : FaultRecord) (b : Byte), f.Catalogued ∧ f.addr = s.pc ∧ t = (s.latchIr b).withRecord f) ∨
      ∃ i : Instr, s.pc.toNat < 256 ∧ memGet s.mem s.pc.toNat = machineOpcodeMap i.mnemonic ∧
        Completes (s.latchIr (machineOpcodeMap i.mnemonic)) i t) := by
  obtain ⟨hrun, ⟨hge, rfl⟩ | ⟨hpc, ⟨e, hdec, rfl⟩ | ⟨i, rest, hdec, hx⟩⟩⟩ := engineStep_next h
  · exact ⟨hrun, .inl ⟨⟨.outOfBounds, .fetch, s.pc, s.pc⟩, s.ir, ⟨hge, rfl⟩, rfl, rfl⟩⟩
  · have hcat := catalogued_illegalInstruction hpc (decodeOpcode_eq_none_of_error hdec)
    exact ⟨hrun, .inl ⟨_, fetchByte s 0, hcat, rfl, rfl⟩⟩
  · refine ⟨hrun, ?_⟩
    have hbyte : memGet s.mem s.pc.toNat = machineOpcodeMap i.mnemonic := memGet_pc_of_decode hpc hdec
    rw [fetchByte_zero hpc, hbyte] at hx
    cases hf : faultOf i (s.latchIr (machineOpcodeMap i.mnemonic)) with
    | some f =>
      obtain ⟨hfault, hcat, haddr⟩ := exec_of_faultOf_eq_some hf hpc
      cases hfault.symm.trans hx
      exact .inl ⟨f, _, hcat, haddr, rfl⟩
    | none => exact .inr ⟨i, hpc, hbyte, completes_of_faultOf_eq_none hf hx⟩

/-- Settles O25: a step that ends FAULTED did not complete an instruction, for none of them sets FAULTED. -/
theorem faultsArePrecise : Obligations.FaultsArePrecise := by
  intro s t h ht
  obtain ⟨hrun, ⟨f, b, -, haddr, rfl⟩ | ⟨i, -, -, hc⟩⟩ := step_next h
  · exact ⟨f, haddr, rfl⟩
  · rw [hc.run_eq, State.latchIr_run, hrun] at ht
    split at ht <;> cases ht

theorem FaultRecord.Catalogued.code_ne {f : FaultRecord} (h : f.Catalogued) : f.code ≠ .unsupportedOperation := by
  obtain ⟨code, kind, addr, value⟩ := f
  rintro rfl
  exact h

/-- Settles O26: the record a step makes is a row of the catalogue, which has none for UnsupportedOperation. -/
theorem unsupportedOperationIsNeverRaised : Obligations.UnsupportedOperationIsNeverRaised := by
  intro s t f h ht hs
  obtain ⟨-, ⟨g, b, hg, -, rfl⟩ | ⟨i, -, -, hc⟩⟩ := step_next h
  · cases ht
    exact hg.code_ne
  · exact absurd (hc.fault_eq.symm.trans ht) hs

end Sys2Proof.Machine

/-! ## Where `pc` goes (R84, R90) -/

namespace Sys2Proof.Machine

theorem namedReg_eq {r : Byte} {d : RegIndex} (hr : r.toNat = d.val) (s : State) : namedReg r s = s.reg d := by
  have hlt : r.toNat < 8 := hr ▸ d.isLt
  rw [namedReg, dif_pos hlt]
  exact congrArg s.reg (Fin.ext hr)

/-- SP after a decrement, which the check at 0 keeps from wrapping (R131). -/
theorem sub_one_toNat {v : Byte} (h : v ≠ 0#8) : (v - 1#8).toNat = v.toNat - 1 := by
  bv_omega

/-- SP after an increment, which the check at 255 keeps from wrapping (R133). -/
theorem add_one_toNat {v : Byte} (h : v ≠ 255#8) : (v + 1#8).toNat = v.toNat + 1 := by
  bv_omega

/-- `p` is the number `n`, in the range of `pc` (R25). -/
def IsNextPc (p : Word9) (n : Nat) : Prop := p.toNat = n ∧ p.toNat ≤ 257

theorem isNextPc_add {p : Word9} {k : Nat} (h : p.toNat + k ≤ 257) : IsNextPc (p + BitVec.ofNat 9 k) (p.toNat + k) := by
  have hsum : (p + BitVec.ofNat 9 k).toNat = p.toNat + k := by
    rw [BitVec.toNat_add, BitVec.toNat_ofNat]
    omega
  exact ⟨hsum, hsum ▸ h⟩

theorem isNextPc_toPc (v : Byte) : IsNextPc (toPc v) v.toNat := by
  have hv := v.isLt
  exact ⟨toPc_toNat v, by rw [toPc_toNat]; omega⟩

theorem isNextPc_toPc_add_one (v : Byte) : IsNextPc (toPc v + 1#9) (v.toNat + 1) := by
  have hv := v.isLt
  exact ⟨toPc_add_one_toNat v, by rw [toPc_add_one_toNat]; omega⟩

/-- An instruction that completes leaves `pc` at the net next-pc of its row (R84, R90). -/
theorem Completes.isNextPc {i : Instr} {s t : State} (h : Completes s i t) (hcell : s.pc.toNat < 256) :
    IsNextPc t.pc (netNextPc i s) := by
  cases h with
  | ldi _ _ hpc => exact isNextPc_add (by omega)
  | add _ _ hpc | sub _ _ hpc | mul _ _ hpc | cmp _ _ hpc => exact isNextPc_add (by omega)
  | prn _ hpc | push _ hpc | pop _ hpc => exact isNextPc_add (by omega)
  | @call r d hr hpc hsp =>
    have htarget : netNextPc (.call r) s = ((s.setSp (pushAddress s)).reg d).toNat + 1 := by
      rw [netNextPc, namedReg_eq hr, reg_setSp_pushAddress, ← sub_one_toNat hsp, apply_ite BitVec.toNat]
      exact congrArg (· + 1) (if_congr (eq_seven_iff hr) rfl rfl)
    exact htarget ▸ isNextPc_toPc_add_one _
  | ret => exact isNextPc_toPc_add_one _
  | jmp hr => rw [netNextPc, namedReg_eq hr]; exact isNextPc_toPc _
  | jeq_taken hE hr => rw [netNextPc, if_pos hE, namedReg_eq hr]; exact isNextPc_toPc _
  | jne_taken hE hr => rw [netNextPc, hE, if_neg Bool.false_ne_true, namedReg_eq hr]; exact isNextPc_toPc _
  | jeq_not_taken _ hE => rw [netNextPc, hE, if_neg Bool.false_ne_true]; exact isNextPc_add (by omega)
  | jne_not_taken _ hE => rw [netNextPc, if_pos hE]; exact isNextPc_add (by omega)
  | nop => exact isNextPc_add (by omega)
  | hlt => exact ⟨rfl, by show s.pc.toNat ≤ 257; omega⟩

/-- Settles O36: with no record in its table an instruction completes, and every way to complete sets `pc` by the row. -/
theorem programCounterFollowsTheNetTable : Obligations.ProgramCounterFollowsTheNetTable :=
  fun _ _ _ hpc hf hx => (completes_of_faultOf_eq_none hf hx).isNextPc hpc

end Sys2Proof.Machine

/-! ## Steps keep legal states (R20, R25, R28, R33) -/

namespace Sys2Proof.Machine

theorem State.Inv.latchIr {s : State} (h : s.Inv) (b : Byte) : (s.latchIr b).Inv :=
  ⟨h.mem_wf, h.fl_high, h.pc_range, h.fault_iff, h.fault_ok⟩

/-- A legal state stays legal when it takes a record of the catalogue at its `pc` (R172). -/
theorem State.Inv.withRecord {s : State} (h : s.Inv) {f : FaultRecord} (hf : f.Catalogued) (ha : f.addr = s.pc) :
    (s.withRecord f).Inv where
  mem_wf := h.mem_wf
  fl_high := h.fl_high
  pc_range := h.pc_range
  fault_iff := iff_of_true rfl rfl
  fault_ok g hg := by cases hg; exact ⟨hf, ha⟩

theorem State.Inv.fault_eq_none {s : State} (h : s.Inv) (hrun : s.run = .running) : s.fault = none := by
  cases hf : s.fault with
  | none => rfl
  | some f =>
    have hfaulted := h.fault_iff.mp (by rw [hf]; rfl)
    rw [hrun] at hfaulted
    cases hfaulted

/-- The writes of PUSH and CALL keep the canonical form, and no other instruction writes memory (log entry 6). -/
theorem Completes.mem_wf {i : Instr} {s t : State} (h : Completes s i t) (hm : Memory.wf s.mem) : Memory.wf t.mem := by
  cases h with
  | push | call => exact State.write_wf _ _ _ hm
  | _ => exact hm

/-- A running legal state stays legal when an instruction completes. -/
theorem Completes.inv {i : Instr} {s t : State} (hc : Completes s i t) (h : s.Inv) (hrun : s.run = .running)
    (hpc : s.pc.toNat < 256) : t.Inv := by
  have hfault : t.fault = none := hc.fault_eq.trans (h.fault_eq_none hrun)
  have hnot : t.run ≠ .faulted := by
    rw [hc.run_eq, hrun]
    split <;> decide
  exact
    { mem_wf := hc.mem_wf h.mem_wf
      fl_high := (exec_fl_high hc.exec_eq).trans h.fl_high
      pc_range := (hc.isNextPc hpc).2
      fault_iff := iff_of_false (by rw [hfault]; decide) hnot
      fault_ok := fun f hf => by rw [hfault] at hf; cases hf }

/-- Settles O20: a step takes a record of the catalogue at `pc`, or completes an instruction; either keeps a legal state
legal. -/
theorem stepKeepsLegalStates : Obligations.StepKeepsLegalStates := by
  intro s t hinv h
  obtain ⟨hrun, ⟨f, b, hcat, haddr, rfl⟩ | ⟨i, hpc, -, hc⟩⟩ := step_next h
  · exact (hinv.latchIr b).withRecord hcat haddr
  · exact hc.inv (hinv.latchIr _) hrun hpc

end Sys2Proof.Machine

/-! ## The stack (R131, R133, R141, R143) -/

namespace Sys2Proof.Machine

/-- `t` is `s` after a PUSH of the byte `v`. -/
structure Pushed (s t : State) (v : Byte) : Prop where
  pc : t.pc = s.pc + 2#9
  sp : t.sp = s.sp - 1#8
  mem_wf : Memory.wf t.mem
  read : ∀ a, t.read a = if s.sp - 1#8 = a then v else s.read a
  reg : ∀ e : RegIndex, e ≠ 7 → t.reg e = s.reg e

/-- `t` is `s` after a POP into register `d`. -/
structure Popped (s t : State) (d : RegIndex) : Prop where
  pc : t.pc = s.pc + 2#9
  sp : t.sp = s.sp + 1#8
  mem : t.mem = s.mem
  reg_same : t.reg d = s.read s.sp
  reg : ∀ e : RegIndex, e ≠ 7 → d ≠ e → t.reg e = s.reg e

section Stack
variable {r : Byte} {d : RegIndex} {s : State}

theorem State.setSp_reg_of_ne {e : RegIndex} (h : e ≠ 7) (s : State) (v : Byte) : (s.setSp v).reg e = s.reg e :=
  s.setReg_reg_other 7 e v h.symm

/-- What a cell holds after a push has stored `v` (R43). -/
theorem read_write_pushAddress (hwf : Memory.wf s.mem) (v a : Byte) :
    ((s.setSp (pushAddress s)).write (pushAddress s) v).read a = if s.sp - 1#8 = a then v else s.read a :=
  (s.setSp (pushAddress s)).write_read _ v a hwf

theorem exec_push_pushed (hwf : Memory.wf s.mem) (hr : r.toNat = d.val) (hd : d ≠ 7) (hpc : s.pc.toNat + 1 < 256)
    (hsp : s.sp ≠ 0#8) : ∃ t, exec (.push r) s = .next t ∧ Pushed s t (s.reg d) := by
  refine ⟨_, (Completes.push hr hpc hsp).exec_eq, rfl, ?_, ?_, fun a => ?_, fun e he => ?_⟩
  · exact s.setSp_sp _
  · exact State.write_wf _ _ _ hwf
  · rw [State.setPc_read, read_write_pushAddress hwf, State.setSp_reg_of_ne hd]
  · exact State.setSp_reg_of_ne he s _

theorem exec_pop_popped (hr : r.toNat = d.val) (hd : d ≠ 7) (hpc : s.pc.toNat + 1 < 256) (hsp : s.sp ≠ 255#8) :
    ∃ t, exec (.pop r) s = .next t ∧ Popped s t d := by
  have hsp' : (s.setReg d (s.read s.sp)).sp = s.sp := s.setReg_sp_of_ne hd _
  refine ⟨_, (Completes.pop hr hpc (by rwa [hsp'])).exec_eq, rfl, ?_, rfl, ?_, fun e he hde => ?_⟩
  · rw [hsp']
    exact State.setSp_sp _ _
  · exact (State.setSp_reg_of_ne hd _ _).trans (s.setReg_reg_same d _)
  · exact (State.setSp_reg_of_ne he _ _).trans (s.setReg_reg_other d e _ hde)

end Stack

theorem pc_add_two_toNat {p : Word9} (h : p.toNat + 1 < 256) : (p + 2#9).toNat = p.toNat + 2 :=
  (isNextPc_add (by omega)).1

theorem Pushed.pc_toNat {s t : State} {v : Byte} (h : Pushed s t v) (hpc : s.pc.toNat + 1 < 256) :
    t.pc.toNat = s.pc.toNat + 2 := by
  rw [h.pc, pc_add_two_toNat hpc]

theorem Popped.pc_toNat {s t : State} {d : RegIndex} (h : Popped s t d) (hpc : s.pc.toNat + 1 < 256) :
    t.pc.toNat = s.pc.toNat + 2 := by
  rw [h.pc, pc_add_two_toNat hpc]

theorem Popped.read {s t : State} {d : RegIndex} (h : Popped s t d) (a : Byte) : t.read a = s.read a := by
  rw [State.read, h.mem, State.read]

/-- A push leaves its byte where the next pop reads. -/
theorem Pushed.read_sp {s t : State} {v : Byte} (h : Pushed s t v) : t.read t.sp = v := by
  rw [h.read, h.sp, if_pos rfl]

/-- Settles O52: a pop reads what the last push not yet popped has stored, and the pops take SP back up. -/
theorem pushThenPopRoundTrips : Obligations.PushThenPopRoundTrips := by
  refine ⟨fun r q d e s hwf hr hq hd he hsp hpc => ?_, fun s hwf hsp hpc => ?_⟩
  · obtain ⟨t, ht, hpush⟩ := exec_push_pushed hwf hr hd (by omega) (by bv_omega)
    have hpc' := hpush.pc_toNat (by omega)
    have hsp' := hpush.sp
    obtain ⟨u, hu, hpop⟩ := exec_pop_popped (s := t) hq he (by omega) (by bv_omega)
    refine ⟨t, u, ht, hu, hpop.reg_same.trans hpush.read_sp, ?_, ?_⟩
    · rw [hpop.sp, hsp', BitVec.sub_add_cancel]
    · rw [hpop.read, ← hsp', hpush.read_sp]
  · obtain ⟨t, ht, h0⟩ := exec_push_pushed (r := 0#8) (d := 0) hwf rfl (by decide) (by omega) (by bv_omega)
    have hpc0 := h0.pc_toNat (by omega)
    have hsp0 := h0.sp
    obtain ⟨u, hu, h1⟩ := exec_push_pushed (r := 1#8) (d := 1) h0.mem_wf rfl (by decide) (by omega) (by bv_omega)
    have hpc1 := h1.pc_toNat (by omega)
    have hsp1 := h1.sp
    obtain ⟨v, hv, h2⟩ := exec_pop_popped (r := 0#8) (d := 0) (s := u) rfl (by decide) (by omega) (by bv_omega)
    have hpc2 := h2.pc_toNat (by omega)
    have hsp2 : v.sp = t.sp := by rw [h2.sp, hsp1, BitVec.sub_add_cancel]
    obtain ⟨w, hw, h3⟩ := exec_pop_popped (r := 1#8) (d := 1) (s := v) rfl (by decide) (by omega) (by bv_omega)
    have hread : v.read v.sp = s.reg 0 := by
      rw [h2.read, hsp2, h1.read, if_neg (by bv_omega), h0.read_sp]
    refine ⟨t, u, v, w, ht, hu, hv, hw, ?_, h3.reg_same.trans hread, ?_⟩
    · rw [h3.reg 0 (by decide) (by decide), h2.reg_same, h1.read_sp, h0.reg 1 (by decide)]
    · rw [h3.sp, hsp2, hsp0, BitVec.sub_add_cancel]

theorem returnByte_toNat {s : State} (hpc : s.pc.toNat + 1 < 256) : (returnByte s).toNat = s.pc.toNat + 1 := by
  rw [returnByte_eq_ofNat, BitVec.toNat_ofNat, Nat.mod_eq_of_lt hpc]

/-- Settles O53: RET pops the byte that CALL pushed, the address of CALL's operand, and goes one past it. -/
theorem retReturnsPastTheCall : Obligations.RetReturnsPastTheCall := by
  intro r d s hwf hr hpc hsp
  refine ⟨_, (Completes.call hr hpc hsp).exec_eq, fun u husp huread => ?_⟩
  have hsp' : u.sp = s.sp - 1#8 := husp.trans (s.setSp_sp _)
  have hread : u.read u.sp = returnByte s := by
    rw [huread, ← husp, hsp', State.setPc_read, read_write_pushAddress hwf, if_pos rfl]
  refine ⟨_, (Completes.ret (s := u) (by bv_omega)).exec_eq, ?_, ?_⟩
  · rw [State.setPc_pc, hread, returnTarget, toPc_add_one_toNat, returnByte_toNat hpc]
  · rw [State.setPc_sp, State.setSp_sp, hsp', BitVec.sub_add_cancel]

/-- Settles O54: where the table has no record the stack check has passed, so SP moves without wrapping. -/
theorem stackPointerNeverWraps : Obligations.StackPointerNeverWraps := by
  intro i s t hf hx
  have hc := completes_of_faultOf_eq_none hf hx
  refine ⟨fun hi => ?_, fun hi => ?_, fun r hi => ?_⟩
  · have hpush (hsp : s.sp ≠ 0#8) : (s.setSp (pushAddress s)).sp.toNat + 1 = s.sp.toNat := by
      rw [State.setSp_sp, pushAddress]
      bv_omega
    cases hc with
    | push _ _ hsp | call _ _ hsp => exact hpush hsp
    | _ => simp [Instr.mnemonic] at hi
  · cases hc with
    | ret hsp => rw [State.setPc_sp, State.setSp_sp, add_one_toNat hsp]
    | _ => cases hi
  · subst hi
    cases hc with
    | pop hr _ hsp => rw [State.setPc_sp, State.setSp_sp, add_one_toNat hsp, setReg_sp_of_named hr]

/-- Settles O55: the fetch reads the cell that the push has written. -/
theorem pushedByteIsFetchedAtOnce : Obligations.PushedByteIsFetchedAtOnce := by
  intro r d s t hwf hr hd hpc hsp hx k hk hcell
  obtain ⟨t', hx', hpush⟩ := exec_push_pushed hwf hr hd hpc hsp
  cases hx'.symm.trans hx
  have haddr : t.pc.toNat + k = t.sp.toNat := by rw [hcell, hpush.sp, sub_one_toNat hsp]
  rw [fetchWindow_getElem? hk (haddr ▸ t.sp.isLt), haddr]
  exact congrArg some hpush.read_sp

end Sys2Proof.Machine

/-! ## IR is latched and never read (R35, R81) -/

namespace Sys2Proof.Machine

/-- IR is unseen: a write of it commutes with every operation of an instruction. -/
theorem latchIr_unseen (v : Byte) : Unseen (·.latchIr v) := by
  constructor <;> intros <;> rfl

/-- Settles O11: the fetch latches the byte at `pc`, and IR is unseen by what follows. -/
theorem eachFetchLatchesIrAndNoneReadsIt : Obligations.EachFetchLatchesIrAndNoneReadsIt :=
  ⟨fun _ _ => engineStep_ir, fun _ _ _ v => (latchIr_unseen v).exec_of_next⟩

/-- Settles O13: a running state has a step, whatever stands at `pc`, and no other state has one. -/
theorem stepIsEnabledExactlyWhileRunning : Obligations.StepIsEnabledExactlyWhileRunning :=
  fun _ => ⟨fun ⟨_, h⟩ => (engineStep_next h).1, engineStep_answers⟩

theorem step_of_faulted {s : State} (h : s.run = .faulted) : step s = .fault .stoppedFaulted := by
  rw [step, engineStep, h]

/-- A run from FAULTED of any length ends at once, where it is (R178). -/
theorem runFor_of_faulted {s : State} (h : s.run = .faulted) (n : Nat) : runFor n s = .faulted s := by
  have hs : RunResult.ofState s = .faulted s := by rw [RunResult.ofState, h]
  cases n with
  | zero => exact hs
  | succ n => rw [runFor, step_of_faulted h, hs]

theorem runFor_of_step {s t : State} (h : step s = .next t) (n : Nat) : runFor (n + 1) s = runFor n t := by
  rw [runFor, h]

/-- The result with IR replaced in the state it ends in. -/
def RunResult.latchIr (v : Byte) : RunResult → RunResult
  | .halted s => .halted (s.latchIr v)
  | .faulted s => .faulted (s.latchIr v)
  | .cutShort s => .cutShort (s.latchIr v)

theorem RunResult.ofState_latchIr (s : State) (v : Byte) :
    RunResult.ofState (s.latchIr v) = (RunResult.ofState s).latchIr v := by
  rw [RunResult.ofState, RunResult.ofState, State.latchIr_run]
  split <;> rfl

/-- A step that fetches a byte overwrites what IR held (R81). -/
theorem step_latchIr {s : State} (hrun : s.run = .running) (hpc : s.pc.toNat < 256) (v : Byte) :
    step (s.latchIr v) = step s := by
  cases hdec : decodeWith machineOpcodeMap (fetchWindow s) with
  | ok d =>
    exact (engineStep_of_decode_ok (s := s.latchIr v) hrun hpc hdec).trans (engineStep_of_decode_ok hrun hpc hdec).symm
  | error e =>
    exact (engineStep_of_decode_error (s := s.latchIr v) hrun hpc hdec).trans
      (engineStep_of_decode_error hrun hpc hdec).symm

/-- What IR held at the start of a run is gone at its end, or stands there with nothing else changed. -/
theorem runFor_latchIr (n : Nat) (s : State) (v : Byte) :
    runFor n (s.latchIr v) = runFor n s ∨ runFor n (s.latchIr v) = (runFor n s).latchIr v := by
  cases n with
  | zero => exact .inr (RunResult.ofState_latchIr s v)
  | succ n =>
    cases hrun : s.run with
    | running =>
      rcases Nat.lt_or_ge s.pc.toNat 256 with hpc | hpc
      · obtain ⟨t, ht⟩ := engineStep_answers (map := machineOpcodeMap) hrun
        exact .inl (by rw [runFor_of_step ht, runFor_of_step ((step_latchIr hrun hpc v).trans ht)])
      · refine .inr ?_
        rw [runFor_of_step (engineStep_of_ge hrun hpc), runFor_of_step (engineStep_of_ge (s := s.latchIr v) hrun hpc),
          runFor_of_faulted rfl, runFor_of_faulted rfl]
        rfl
    | halted => exact .inr (by rw [runFor_of_halted hrun, runFor_of_halted (s := s.latchIr v) hrun]; rfl)
    | faulted => exact .inr (by rw [runFor_of_faulted hrun, runFor_of_faulted (s := s.latchIr v) hrun]; rfl)

/-- Settles O12: a run keeps what IR held only in IR, which the host does not see. -/
theorem irIsUnobservable : Obligations.IrIsUnobservable := by
  intro n s v
  have h : runFor n { s with ir := v } = runFor n s ∨ runFor n { s with ir := v } = (runFor n s).latchIr v :=
    runFor_latchIr n s v
  rcases h with h | h <;> rw [h] <;> cases runFor n s <;> rfl

end Sys2Proof.Machine

/-! ## How runs end (R87, R88) -/

namespace Sys2Proof.Machine

/-- A step that halts is HLT's: it writes RUN, and IR with the opcode it fetched (R163). -/
theorem step_halted {s t : State} (h : step s = .next t) (ht : t.run = .halted) :
    s.pc.toNat < 256 ∧ memGet s.mem s.pc.toNat = machineOpcodeMap .hlt ∧
      t = (s.latchIr (machineOpcodeMap .hlt)).halt := by
  obtain ⟨hrun, ⟨f, b, -, -, rfl⟩ | ⟨i, hpc, hopcode, hc⟩⟩ := step_next h
  · cases ht
  · have hi : i = .hlt := by
      by_contra hne
      rw [hc.run_eq, if_neg hne, State.latchIr_run, hrun] at ht
      cases ht
    subst hi
    cases hc
    exact ⟨hpc, hopcode, rfl⟩

/-- Settles O15, by induction on the length of the run: its last step is the one that halts. -/
theorem runHaltsOnlyAtHlt : Obligations.RunHaltsOnlyAtHlt := by
  intro n
  induction n with
  | zero =>
    intro s t hrun h
    rw [runFor, RunResult.ofState, hrun] at h
    cases h
  | succ n ih =>
    intro s t hrun h
    obtain ⟨u, hu⟩ := engineStep_answers (map := machineOpcodeMap) hrun
    rw [runFor_of_step hu] at h
    cases hrun' : u.run with
    | running => exact ih u t hrun' h
    | faulted =>
      rw [runFor_of_faulted hrun'] at h
      cases h
    | halted =>
      rw [runFor_of_halted hrun'] at h
      cases h
      obtain ⟨hpc, hopcode, rfl⟩ := step_halted hu hrun'
      exact ⟨rfl, hpc, hopcode, rfl⟩

theorem holdsAtPc_jmp {s : State} {r : Byte} (hpc : s.pc.toNat + 1 < 256)
    (hop : memGet s.mem s.pc.toNat = machineOpcodeMap .jmp) (hr : memGet s.mem (s.pc.toNat + 1) = r) :
    HoldsAtPc machineOpcodeMap (.jmp r) s := by
  rintro (_ | _ | k) v hv
  · cases hv
    exact ⟨Nat.lt_of_succ_lt hpc, hop⟩
  · cases hv
    exact ⟨hpc, hr⟩
  · cases hv

/-- A JMP whose register holds the JMP's own address writes IR alone (R145). -/
theorem step_jmp_self {s : State} {r : Byte} {d : RegIndex} (hrun : s.run = .running) (hpc : s.pc.toNat + 1 < 256)
    (hjmp : HoldsAtPc machineOpcodeMap (.jmp r) s) (hr : r.toNat = d.val) (hself : (s.reg d).toNat = s.pc.toNat) :
    step s = .next (s.latchIr (machineOpcodeMap .jmp)) := by
  have hpcSelf : toPc (s.reg d) = s.pc := BitVec.eq_of_toNat_eq (by rw [toPc_toNat, hself])
  calc step s = exec (.jmp r) (s.latchIr (machineOpcodeMap .jmp)) :=
        hjmp.engineStep_eq machineOpcodeMap_distinct hrun
    _ = .next ((s.latchIr (machineOpcodeMap .jmp)).setPc (toPc (s.reg d))) :=
        (Completes.jmp (s := s.latchIr (machineOpcodeMap .jmp)) hr hpc).exec_eq
    _ = .next (s.latchIr (machineOpcodeMap .jmp)) := by rw [hpcSelf]; rfl

/-- Settles O16, by induction on the length of the run: each step leaves a state in which the next does the same. -/
theorem jumpToItselfNeverEnds : Obligations.JumpToItselfNeverEnds := by
  intro s r d hrun hpc hop hoperand hr hself n
  have hjmp := holdsAtPc_jmp hpc hop hoperand
  clear hop hoperand
  induction n generalizing s with
  | zero => exact ⟨s, by rw [runFor, RunResult.ofState, hrun], rfl⟩
  | succ n ih =>
    rw [runFor_of_step (step_jmp_self hrun hpc hjmp hr hself)]
    exact ih (s.latchIr (machineOpcodeMap .jmp)) hrun hpc hself hjmp

end Sys2Proof.Machine

/-! ## Registers written (R22) -/

namespace Sys2Proof.Machine

theorem ne_of_not_namesReg {r : Byte} {d e : RegIndex} (he : r.toNat = e.val) (h : ¬ namesReg r d) : e ≠ d :=
  fun hed => h (hed ▸ he)

theorem aluApply_reg_of_ne (op : AluOp) {a d : RegIndex} (h : a ≠ d) (b : RegIndex) (s : State) :
    (aluApply op a b s).reg d = s.reg d := by
  obtain ⟨-, -, -, -, -, -, hreg, -, -⟩ := aluApply_frame op a b s
  exact hreg d h.symm

/-- A register out of an instruction's row keeps its value, whether the instruction completes or faults (R22). -/
theorem exec_reg {i : Instr} {s t : State} {d : RegIndex} (h : exec i s = .next t) (hd : ¬ WritesReg i d) :
    t.reg d = s.reg d := by
  rcases exec_next h with ⟨c, k, v, rfl⟩ | hc
  · rfl
  · cases hc with
    | ldi _ hr => exact s.setReg_reg_other _ d _ (ne_of_not_namesReg hr hd)
    | add hr | sub hr | mul hr => exact aluApply_reg_of_ne _ (ne_of_not_namesReg hr hd) _ s
    | push | call | ret => exact State.setSp_reg_of_ne hd s _
    | pop hr =>
      obtain ⟨hnamed, hd7⟩ := not_or.mp hd
      exact (State.setSp_reg_of_ne hd7 _ _).trans (s.setReg_reg_other _ d _ (ne_of_not_namesReg hr hnamed))
    | _ => rfl

/-- Settles O34, from what an instruction can answer. -/
theorem registersWrittenAreThoseTabulated : Obligations.RegistersWrittenAreThoseTabulated :=
  fun _ _ _ _ => exec_reg

end Sys2Proof.Machine

/-! ## Registers read (R22)

`Unseen` is about updates that no instruction can tell. Here an update may touch registers and E, and one instruction
cannot tell it: the update keeps what the instruction's row reads and commutes with what the row writes. -/

namespace Sys2Proof.Machine

/-- `f` leaves `pc` and memory as they are, and commutes with a fault and with the writes that are to no register or
flag. -/
structure KeepsFrame (f : State → State) : Prop where
  pc : ∀ s, (f s).pc = s.pc
  mem : ∀ s, (f s).mem = s.mem
  write : ∀ s a v, f (s.write a v) = (f s).write a v
  setPc : ∀ s t, f (s.setPc t) = (f s).setPc t
  emit : ∀ s v, f (s.emit v) = (f s).emit v
  halt : ∀ s, f s.halt = (f s).halt
  takeFault : ∀ s c k v, f (s.takeFault c k v) = (f s).takeFault c k v

/-- The instruction `i` at the state `s` cannot tell `f`: `f` keeps the registers and the flag that `i` reads at `s`, and
commutes with the writes that `i` makes. -/
structure UnseenBy (i : Instr) (s : State) (f : State → State) : Prop extends KeepsFrame f where
  reg : ∀ d, ReadsReg i s d → ∀ t, (f t).reg d = t.reg d
  setReg : ∀ d, WritesReg i d → ∀ t v, f (t.setReg d v) = (f t).setReg d v
  flagE : i.mnemonic = .jeq ∨ i.mnemonic = .jne → ∀ t, (f t).flagE = t.flagE
  setFlagE : i.mnemonic = .cmp → ∀ t b, f (t.setFlagE b) = (f t).setFlagE b

namespace KeepsFrame
variable {f : State → State} (hf : KeepsFrame f) {s : State}
include hf

theorem read (a : Byte) : (f s).read a = s.read a := by rw [State.read, hf.mem, State.read]

theorem withOperand {k : Nat} {go go' : Res} (h : go' = mapNext f go) :
    Machine.withOperand k (f s) go' = mapNext f (Machine.withOperand k s go) := by
  rcases Nat.lt_or_ge (s.pc.toNat + k) 256 with hk | hk
  · rw [withOperand_of_lt hk, withOperand_of_lt (by rwa [hf.pc]), h]
  · rw [withOperand_of_ge hk, withOperand_of_ge (by rwa [hf.pc]), mapNext_next, hf.takeFault, hf.pc]

theorem withReg {r : Byte} {go go' : RegIndex → Res}
    (h : ∀ d : RegIndex, r.toNat = d.val → go' d = mapNext f (go d)) :
    Machine.withReg r (f s) go' = mapNext f (Machine.withReg r s go) := by
  rcases withReg_cases r s go with ⟨d, hr, e⟩ | ⟨hr, e⟩
  · rw [e, withReg_of_eq d hr, h d hr]
  · rw [e, withReg_of_ge hr, mapNext_next, hf.takeFault]

theorem withPush {go go' : State → Res} (hsp : (f s).sp = s.sp) (hset : ∀ v, f (s.setSp v) = (f s).setSp v)
    (h : ∀ t, go' (f t) = mapNext f (go t)) : Machine.withPush (f s) go' = mapNext f (Machine.withPush s go) := by
  rcases withPush_cases s go with ⟨h0, e⟩ | ⟨h0, e⟩
  · rw [e, withPush_of_ne (hsp ▸ h0), pushAddress, hsp, ← hset, h, pushAddress]
  · rw [e, withPush_of_eq (hsp.trans h0), mapNext_next, hf.takeFault]

theorem withPop {sp : Byte} {go go' : Res} (h : go' = mapNext f go) :
    Machine.withPop sp (f s) go' = mapNext f (Machine.withPop sp s go) := by
  rcases withPop_cases sp s go with ⟨h255, e⟩ | ⟨h255, e⟩
  · rw [e, withPop_of_ne h255, h]
  · rw [e, withPop_of_eq h255, mapNext_next, hf.takeFault]

theorem aluInstr {op : AluOp} {ra rb : Byte}
    (h : ∀ a b : RegIndex, ra.toNat = a.val → rb.toNat = b.val → aluApply op a b (f s) = f (aluApply op a b s)) :
    Machine.aluInstr op ra rb (f s) = mapNext f (Machine.aluInstr op ra rb s) :=
  hf.withOperand <| hf.withOperand <| hf.withReg fun a ha => hf.withReg fun b hb => by
    rw [mapNext_next, hf.setPc, h a b ha hb, hf.pc]

theorem jump {r : Byte} (h : ∀ d : RegIndex, r.toNat = d.val → (f s).reg d = s.reg d) :
    Machine.jump r (f s) = mapNext f (Machine.jump r s) :=
  hf.withOperand <| hf.withReg fun d hr => by rw [mapNext_next, hf.setPc, h d hr]

theorem advance (k : Word9) : (.next ((f s).setPc ((f s).pc + k)) : Res) = mapNext f (.next (s.setPc (s.pc + k))) := by
  rw [mapNext_next, hf.setPc, hf.pc]

end KeepsFrame

/-- An instruction acts the same under an update it cannot tell, and leaves the update in place. -/
theorem UnseenBy.exec {i : Instr} {s : State} {f : State → State} (hf : UnseenBy i s f) :
    exec i (f s) = mapNext f (exec i s) := by
  have hframe := hf.toKeepsFrame
  cases i with
  | ldi r imm =>
    exact hframe.withOperand <| hframe.withOperand <| hframe.withReg fun d hr => by
      rw [mapNext_next, hf.setPc, hf.setReg d hr, hf.pc]
  | prn r =>
    exact hframe.withOperand <| hframe.withReg fun d hr => by
      rw [mapNext_next, hf.setPc, hf.emit, hf.reg d hr, hf.pc]
  | add ra rb | sub ra rb | mul ra rb =>
    exact hframe.aluInstr fun a b ha hb => by
      simp only [aluApply, hf.setReg a ha, hf.reg a (.inl ha), hf.reg b (.inr hb)]
  | cmp ra rb =>
    exact hframe.aluInstr fun a b ha hb => by
      simp only [aluApply, hf.setFlagE rfl, hf.reg a (.inl ha), hf.reg b (.inr hb)]
  | push r =>
    have hsp : (f s).sp = s.sp := hf.reg _ (.inr rfl) s
    exact hframe.withOperand <| hframe.withReg fun d hr => hframe.withPush hsp (hf.setReg _ rfl s) fun t => by
      rw [mapNext_next, hf.setPc, hf.write, hf.reg d (.inl hr), hf.pc, pushAddress, hsp, pushAddress]
  | pop r =>
    have hsp : (f s).sp = s.sp := hf.reg _ rfl s
    refine hframe.withOperand <| hframe.withReg fun d hr => ?_
    have hset : (f s).setReg d ((f s).read (f s).sp) = f (s.setReg d (s.read s.sp)) := by
      rw [hsp, hframe.read, hf.setReg d (.inl hr)]
    have hsp' : (f (s.setReg d (s.read s.sp))).sp = (s.setReg d (s.read s.sp)).sp := hf.reg _ rfl _
    dsimp only
    rw [hset, hsp']
    refine hframe.withPop ?_
    rw [mapNext_next, hf.setPc, State.setSp, State.setSp, hf.setReg _ (.inr rfl), hf.pc]
  | call r =>
    have hsp : (f s).sp = s.sp := hf.reg _ (.inr rfl) s
    exact hframe.withOperand <| hframe.withReg fun d hr => hframe.withPush hsp (hf.setReg _ rfl s) fun t => by
      rw [mapNext_next, hf.setPc, hf.write, hf.reg d (.inl hr), returnByte, hf.pc, returnByte, pushAddress, hsp,
        pushAddress]
  | ret =>
    have hsp : (f s).sp = s.sp := hf.reg _ rfl s
    rw [Machine.exec, Machine.exec, execRet, execRet, hsp]
    refine hframe.withPop ?_
    rw [mapNext_next, hf.setPc, State.setSp, State.setSp, hf.setReg _ rfl, hframe.read]
  | jmp r => exact hframe.jump fun d hr => hf.reg d hr s
  | jeq r =>
    rw [Machine.exec, Machine.exec, execJeq, execJeq, hf.flagE (.inl rfl)]
    cases hE : s.flagE with
    | true => exact hframe.jump fun d hr => hf.reg d ⟨hE, hr⟩ s
    | false => exact hframe.advance 2#9
  | jne r =>
    rw [Machine.exec, Machine.exec, execJne, execJne, hf.flagE (.inr rfl)]
    cases hE : s.flagE with
    | true => exact hframe.advance 2#9
    | false => exact hframe.jump fun d hr => hf.reg d ⟨hE, hr⟩ s
  | nop => exact hframe.advance 1#9
  | hlt => exact congrArg Host.Outcome.next (hf.halt s).symm

theorem UnseenBy.exec_of_next {i : Instr} {s t : State} {f : State → State} (hf : UnseenBy i s f)
    (h : Machine.exec i s = .next t) : Machine.exec i (f s) = .next (f t) := by
  rw [hf.exec, h, mapNext_next]

/-- Writes of two registers may be made in either order. -/
theorem State.setReg_comm {d e : RegIndex} (h : d ≠ e) (s : State) (v w : Byte) :
    (s.setReg e w).setReg d v = (s.setReg d v).setReg e w := by
  have hregs : (s.regs.set e.val w).set d.val v = (s.regs.set d.val v).set e.val w :=
    Vector.set_comm _ _ fun hed => h (Fin.ext hed.symm)
  exact congrArg (fun regs => { s with regs }) hregs

/-- A register out of the instruction's row is unseen by it (R22). -/
theorem setReg_unseenBy {i : Instr} {s : State} {d : RegIndex} (hreads : ¬ ReadsReg i s d) (hwrites : ¬ WritesReg i d)
    (v : Byte) : UnseenBy i s (·.setReg d v) where
  pc _ := rfl
  mem _ := rfl
  write _ _ _ := rfl
  setPc _ _ := rfl
  emit _ _ := rfl
  halt _ := rfl
  takeFault _ _ _ _ := rfl
  reg e he t := t.setReg_reg_other d e v fun hde => hreads (hde ▸ he)
  setReg e he t w := State.setReg_comm (by rintro rfl; exact hwrites he) t v w
  flagE _ _ := rfl
  setFlagE _ _ _ := rfl

/-- A write of the whole of FL. -/
def State.setFl (s : State) (v : Byte) : State := { s with fl := v }

/-- FL is unseen by every instruction but JEQ and JNE, which read it, and CMP, which writes it (R29). -/
theorem setFl_unseenBy {i : Instr} (s : State) (hjeq : i.mnemonic ≠ .jeq) (hjne : i.mnemonic ≠ .jne)
    (hcmp : i.mnemonic ≠ .cmp) (v : Byte) : UnseenBy i s (·.setFl v) where
  pc _ := rfl
  mem _ := rfl
  write _ _ _ := rfl
  setPc _ _ := rfl
  emit _ _ := rfl
  halt _ := rfl
  takeFault _ _ _ _ := rfl
  reg _ _ _ := rfl
  setReg _ _ _ _ := rfl
  flagE h _ := (h.elim hjeq hjne).elim
  setFlagE h _ _ := (hcmp h).elim

/-- Settles O35: a register out of the row, and FL for all but three instructions, are unseen by the instruction. -/
theorem registersReadAreThoseTabulated : Obligations.RegistersReadAreThoseTabulated :=
  ⟨fun _ _ _ _ v h hreads hwrites => (setReg_unseenBy hreads hwrites v).exec_of_next h,
    fun _ s _ v h hjeq hjne hcmp => (setFl_unseenBy s hjeq hjne hcmp v).exec_of_next h⟩

end Sys2Proof.Machine

/-! ## Operand bytes past the last cell (R82, R147) -/

namespace Sys2Proof

/-- An instruction is what its mnemonic's format makes of its operand bytes. -/
theorem Instr.decodeOperands_eq {m : Mnemonic} {j : Instr} (h : m = j.mnemonic) :
    decodeOperands m j.operandBytes = .ok (j, []) := by
  rw [h, ← decodeOperands_operandBytes j [], List.append_nil]

end Sys2Proof

namespace Sys2Proof.Machine

/-- The operand bytes of two instructions are the same as far as there are cells for them from `pc + 1` on. -/
def AgreeOnCells (s : State) (bs cs : List Byte) : Prop := ∀ k : Nat, s.pc.toNat + 1 + k < 256 → bs[k]? = cs[k]?

section Agree
variable {s : State} {b c b' c' : Byte} {bs cs : List Byte}

theorem AgreeOnCells.first (h : AgreeOnCells s (b :: bs) (b' :: cs)) (hpc : s.pc.toNat + 1 < 256) : b = b' :=
  Option.some.inj (h 0 hpc)

theorem AgreeOnCells.second (h : AgreeOnCells s (b :: c :: bs) (b' :: c' :: cs)) (hpc : s.pc.toNat + 2 < 256) : c = c' :=
  Option.some.inj (h 1 hpc)

/-- What follows an operand check matters only where the check passes. -/
theorem withOperand_congr {k : Nat} {go go' : Res} (h : s.pc.toNat + k < 256 → go = go') :
    withOperand k s go = withOperand k s go' := by
  rcases Nat.lt_or_ge (s.pc.toNat + k) 256 with hk | hk
  · rw [h hk]
  · rw [withOperand_of_ge hk, withOperand_of_ge hk]

theorem aluInstr_congr (h : AgreeOnCells s [b, c] [b', c']) (op : AluOp) : aluInstr op b c s = aluInstr op b' c' s :=
  withOperand_congr fun hpc => withOperand_congr fun hpc2 => by rw [h.first hpc, h.second hpc2]

theorem jump_congr (h : AgreeOnCells s [b] [b']) : jump b s = jump b' s :=
  withOperand_congr fun hpc => by rw [h.first hpc]

theorem branch_congr (h : AgreeOnCells s [b] [b']) (taken : Bool) : branch taken b s = branch taken b' s := by
  cases taken with
  | true => exact jump_congr h
  | false => rfl

end Agree

/-- Settles O28: each check of an operand's address stands before every use of the operand. -/
theorem operandBytesPastTheEndAreNeverSeen : Obligations.OperandBytesPastTheEndAreNeverSeen := by
  intro i j s _ hm hagree
  have hj := Instr.decodeOperands_eq hm
  have hagree : AgreeOnCells s i.operandBytes j.operandBytes := hagree
  cases i with
  | ldi r imm =>
    obtain ⟨_, _, rfl, -⟩ := takeTwo_ok hj
    exact withOperand_congr fun hpc => withOperand_congr fun hpc2 => by rw [hagree.first hpc, hagree.second hpc2]
  | add ra rb | sub ra rb | mul ra rb | cmp ra rb =>
    obtain ⟨_, _, rfl, -⟩ := takeTwo_ok hj
    exact aluInstr_congr hagree _
  | prn r | push r | pop r | call r =>
    obtain ⟨_, rfl, -⟩ := takeOne_ok hj
    exact withOperand_congr fun hpc => by rw [hagree.first hpc]
  | jmp r =>
    obtain ⟨_, rfl, -⟩ := takeOne_ok hj
    exact jump_congr hagree
  | jeq r | jne r =>
    obtain ⟨_, rfl, -⟩ := takeOne_ok hj
    exact branch_congr hagree _
  | ret | nop | hlt => cases hj; rfl

end Sys2Proof.Machine
